-- ==== Sys2Proof/Word.lean ====
section
/-! DEFINITION. The machine's word and address types (spec/00_scope.md R7, R8). Bit 0 is the least significant bit. -/

namespace Sys2Proof

/-- A drum word: a 32-bit pattern, the atomic unit of storage (R8; its width is the spec's decision D1, log entry 2). -/
abbrev Word := BitVec 32

/-- A flat drum address, 0..4095 (R8). -/
abbrev Addr := BitVec 12

/-- The track coordinate of an address, 0..63 (R8). -/
abbrev Track := BitVec 6

/-- The sector coordinate of an address and the head position, 0..63 (R8, R22). -/
abbrev Sector := BitVec 6

/-- The 4-bit `command` field of an instruction word (R71). -/
abbrev Opcode := BitVec 4

end Sys2Proof
end

