-- ==== Sys2Proof/Config.lean ====
section
/-! DEFINITION. The parameters of the core (spec/00_scope.md R5): the fixed ones as constants, the three OPEN ones as the
fields of `Config`. The spec leaves no instruction result open, so there is no free value here. -/

namespace Sys2Proof

/-- `TRACKS` of R5. -/
@[simp] abbrev Config.tracks : Nat := 64

/-- `SECTORS_PER_TRACK` of R5. -/
@[simp] abbrev Config.sectorsPerTrack : Nat := 64

/-- `DRUM_WORDS` of R5: `TRACKS` times `SECTORS_PER_TRACK`. -/
@[simp] abbrev Config.drumWords : Nat := Config.tracks * Config.sectorsPerTrack

/-- `FETCH_TRANSFER_COST` of R5: the word-time an instruction fetch spends beyond its wait. -/
@[simp] abbrev Config.fetchTransferCost : Nat := 1

/-- `EXEC_OVERHEAD` of R5: zero for all sixteen opcodes (R94, conflict C6). -/
@[simp] abbrev Config.execOverhead : Nat := 0

/-- The three parameters R5 marks OPEN, each with the default R5 gives it (DESIGN CHOICE, log entries 4, 5 and 6). -/
structure Config where
  /-- `HEAD_RESET`: the head position after construction. -/
  headReset : Sector := 0
  /-- `DRUM_IMAGE`: the drum contents after construction. -/
  drumImage : Addr → Word := fun _ => 0
  /-- `OPERAND_STRICT`: whether a fetched word with bits 15:14 set is refused (R73, R155). -/
  operandStrict : Bool := false

/-- The default parameters of R5, which `Machine.step` and `Machine.State.reset` take. -/
def Config.default : Config := {}

end Sys2Proof
end

