-- ==== Sys2Proof/Syntax.lean ====
section
/-! DEFINITION. The instructions: one constructor per row of spec/opcode_table.json (spec/30_encoding.md R75). Every row
carries the operand address, since `Decode` extracts it for every opcode, also for those that do not use it (R73). -/

namespace Sys2Proof

/-- The sixteen instructions of R75. The names of the reserved ones are the spec's own (D13). -/
inductive Instr where
  /-- Reserved opcode 0x0 (R125). -/
  | u0 (operand : Addr)
  /-- Bring, opcode 0x1 (R110). -/
  | b (operand : Addr)
  /-- Reserved opcode 0x2 (R125). -/
  | u2 (operand : Addr)
  /-- Reserved opcode 0x3 (R125). -/
  | u3 (operand : Addr)
  /-- Reserved opcode 0x4 (R125). -/
  | u4 (operand : Addr)
  /-- Reserved opcode 0x5 (R125). -/
  | u5 (operand : Addr)
  /-- Reserved opcode 0x6 (R125). -/
  | u6 (operand : Addr)
  /-- Reserved opcode 0x7 (R125). -/
  | u7 (operand : Addr)
  /-- Reserved opcode 0x8 (R125). -/
  | u8 (operand : Addr)
  /-- Reserved opcode 0x9 (R125). -/
  | u9 (operand : Addr)
  /-- Reserved opcode 0xA (R125). -/
  | uA (operand : Addr)
  /-- Reserved opcode 0xB (R125). -/
  | uB (operand : Addr)
  /-- Reserved opcode 0xC (R125). -/
  | uC (operand : Addr)
  /-- Reserved opcode 0xD (R125). -/
  | uD (operand : Addr)
  /-- Hold, opcode 0xE (R111). -/
  | h (operand : Addr)
  /-- Stop, opcode 0xF (R120). -/
  | z (operand : Addr)
  deriving DecidableEq, Repr

/-- The operand address of an instruction; B reads it, H writes it, the others ignore it (R75). -/
def Instr.operand : Instr → Addr
  | .u0 a | .b a | .u2 a | .u3 a | .u4 a | .u5 a | .u6 a | .u7 a => a
  | .u8 a | .u9 a | .uA a | .uB a | .uC a | .uD a | .h a | .z a => a

end Sys2Proof
end

