-- ==== Sys2Proof/WellFormed.lean ====
section
/-! DEFINITION. Well-formedness. The machine itself makes no such check ("every word decodes", spec/30_encoding.md R78); what
can be ill formed is a pair of numbers offered to `Encode`, whose domain R79 gives. -/

namespace Sys2Proof

/-- The domain of `Encode(command, operandAddress)`: 0..15 and 0..4095 (R79). -/
def fieldsWellFormed (command operandAddress : Nat) : Bool :=
  decide (command < 16) && decide (operandAddress < Config.drumWords)

/-- An instruction is well formed when its operand is a drum address. The type of the operand already says so, which
`Laws.Fields` proves for each constructor: no instruction is ill formed (R76, R78). -/
def Instr.wellFormed (i : Instr) : Bool := decide (i.operand.toNat < Config.drumWords)

end Sys2Proof
end

