-- ==== Sys2Proof/Decode.lean ====
section
/-! DEFINITION. The decoder and the encoder of the one format W32 (spec/30_encoding.md R70 to R79). -/

namespace Sys2Proof

/-- The `command` value of an instruction (R75). -/
def Instr.opcode : Instr → Opcode
  | .u0 _ => 0x0
  | .b _ => 0x1
  | .u2 _ => 0x2
  | .u3 _ => 0x3
  | .u4 _ => 0x4
  | .u5 _ => 0x5
  | .u6 _ => 0x6
  | .u7 _ => 0x7
  | .u8 _ => 0x8
  | .u9 _ => 0x9
  | .uA _ => 0xA
  | .uB _ => 0xB
  | .uC _ => 0xC
  | .uD _ => 0xD
  | .h _ => 0xE
  | .z _ => 0xF

/-- The instructions of the thirteen reserved opcodes, the values not in 0x1, 0xE, 0xF (R125). -/
def Instr.reserved : Instr → Bool
  | .b _ | .h _ | .z _ => false
  | .u0 _ | .u2 _ | .u3 _ | .u4 _ | .u5 _ | .u6 _ | .u7 _ => true
  | .u8 _ | .u9 _ | .uA _ | .uB _ | .uC _ | .uD _ => true

/-- The operand address of the instructions that access the drum when they execute, Bring and Hold (R57). -/
def Instr.drumOperand : Instr → Option Addr
  | .b a | .h a => some a
  | .u0 _ | .u2 _ | .u3 _ | .u4 _ | .u5 _ | .u6 _ | .u7 _ | .z _ => none
  | .u8 _ | .u9 _ | .uA _ | .uB _ | .uC _ | .uD _ => none

/-- `command = w[19:16]` (R71). -/
def command (w : Word) : Opcode := w.extractLsb' 16 4

/-- `operandAddress = w[13:2]`, unsigned, no scaling (R72: the spec's decision D4, conflict C1; log entry 4). -/
def operandAddress (w : Word) : Addr := w.extractLsb' 2 12

/-- Bits 15:14, ignored by decode unless `OPERAND_STRICT` (R72, R74). -/
def unusedMiddle (w : Word) : BitVec 2 := w.extractLsb' 14 2

/-- `Decode(w)` as the pair R73 gives. It is total and reads nothing but `w`. -/
def decodeFields (w : Word) : Opcode × Addr := (command w, operandAddress w)

/-- The row of the opcode map a `command` value selects (R75). The last arm is reached by 0xF alone: `command` has four bits. -/
def instrOfFields (c : Opcode) (a : Addr) : Instr :=
  match c.toNat with
  | 0 => .u0 a
  | 1 => .b a
  | 2 => .u2 a
  | 3 => .u3 a
  | 4 => .u4 a
  | 5 => .u5 a
  | 6 => .u6 a
  | 7 => .u7 a
  | 8 => .u8 a
  | 9 => .u9 a
  | 10 => .uA a
  | 11 => .uB a
  | 12 => .uC a
  | 13 => .uD a
  | 14 => .h a
  | _ => .z a

/-- `Decode` with the default parameters: every word is some instruction (R73, R76). -/
def decode (w : Word) : Instr := instrOfFields (decodeFields w).1 (decodeFields w).2

/-- The one reason a word can be refused by `Decode`, and only when `OPERAND_STRICT` is true (R73). -/
inductive DecodeError where
  /-- "operand bits 15:14 set, see 30_encoding.md rule R72". -/
  | operandBitsSet (w : Word)
  deriving DecidableEq, Repr

/-- `Decode(w)` under a value of the parameter `OPERAND_STRICT` (R73). -/
def decodeWith (strict : Bool) (w : Word) : Except DecodeError Instr :=
  if strict && unusedMiddle w != 0 then .error (.operandBitsSet w) else .ok (decode w)

/-- `Encode(command, operandAddress)`: the canonical word, all ignored bits zero (R79: the spec's decision D14; log entry 15). -/
def encodeFields (c : Opcode) (a : Addr) : Word :=
  (c.setWidth 32 <<< 16) ||| (a.setWidth 32 <<< 2)

/-- The canonical word of an instruction (R79). -/
def encode (i : Instr) : Word := encodeFields i.opcode i.operand

/-- `Encode` on plain numbers, defined on the domain R79 gives and on nothing else. -/
def encodeNumbers (c a : Nat) : Option Word :=
  if fieldsWellFormed c a then some (encodeFields (BitVec.ofNat 4 c) (BitVec.ofNat 12 a)) else none

/-- The instruction the decoder reads from the bits `w` of a row of spec/opcode_table.json, bit 0 of the table being bit 0 of
the word (R7); bits at or above `nbits` are taken as zero. There is no byte order to lay the word out by (R54; log entry 18). -/
def decodeTableWord (nbits w : Nat) : Option Instr :=
  match decodeWith Config.default.operandStrict (BitVec.ofNat 32 (w % 2 ^ nbits)) with
  | .ok i => some i
  | .error _ => none

end Sys2Proof
end

