-- ==== Sys2Proof/Machine/State.lean ====
section
/-! DEFINITION. The state of the machine: exactly the seven items of spec/10_state.md R20, as plain data; the reasons a step or
a host operation can stop; the state after reset. -/

namespace Sys2Proof.Machine

/-- One listed word of the drum: its flat address and its content. The unit is the whole word: "a model must not lay `mem` out
as bytes" (R54; log entry 1). -/
abbrev Cell := Nat × Word

/-- What a drum address that is not listed holds: the default `DRUM_IMAGE`, every word zero (R21, R32; log entry 6). -/
def unlistedWord : Word := 0

/-- The drum, as the list of the words that differ from `unlistedWord` (R21, R40; log entry 19). -/
abbrev Memory := List Cell

/-- The canonical form: addresses strictly rising and on the drum, no listed word equal to what an unlisted one reads as. -/
abbrev Memory.wf (m : Memory) : Prop :=
  m.Pairwise (fun c d => c.1 < d.1) ∧ ∀ c ∈ m, c.1 < Config.drumWords ∧ c.2 ≠ unlistedWord

/-- The record of one "unimplemented instruction" event (R27, R152): the `command` and the address of the instruction. -/
structure Event where
  opcode : Opcode
  location : Addr
  deriving DecidableEq, Repr

/-- The one fatal fault of the machine (R150, R151). -/
inductive Fault where
  /-- `DrumRangeError(track, sector)`: raised by a Drum Store or host operation called with a coordinate outside 0..63; never by
  a step (R65, R104). The record holds the offending arguments; `Latency` called on its own has no track argument and records
  none (log entry 11). Safe: the operation does not happen and the run ends, as R151 says. -/
  | drumRangeError (track : Option Int) (sector : Int)
  deriving DecidableEq, Repr

/-- Why a step can be refused. -/
inductive Refusal where
  /-- An instruction the model gives no meaning yet; raised by a dispatch arm. Safe. No arm raises it: all sixteen have one. -/
  | notModelled (mnemonic : String)
  /-- The strict-decode refusal of R155: raised by a step that fetches a word with bits 15:14 set when `OPERAND_STRICT` is
  true. Safe. `Machine.step` takes the default, false, and never raises it. -/
  | operandBitsSet (word : Word)
  deriving DecidableEq, Repr

/-- The whole state (R20): the first two belong to the Drum Store, the next four to the Processing Unit, the last is its output. -/
structure State where
  /-- The drum word array (R21). -/
  mem : Memory
  /-- The sector under the read/write head (R22). -/
  head : Sector
  /-- The accumulator (R23). -/
  acc : Word
  /-- The instruction counter (R24). -/
  ic : Addr
  /-- Whether the machine is in `HALTED` (R25). -/
  halted : Bool
  /-- Total elapsed word-times, unbounded (R26; log entry 7). -/
  ticks : Nat
  /-- The reported unimplemented-instruction events, oldest first (R27; log entry 8). -/
  events : List Event
  deriving DecidableEq, Repr

/-- The machine right after construction with the default parameters (R32, R170). -/
def State.reset : State :=
  { mem := [], head := 0, acc := 0, ic := 0, halted := false, ticks := 0, events := [] }

end Sys2Proof.Machine
end

