-- ==== Sys2Proof/Machine/Ops.lean ====
section
/-! DEFINITION. The named operations over memory, the head, the clock and the event list (spec/20_memory.md, 40_step_cycle.md,
60_exceptions.md). There is no operation that takes an exception: "no condition saves state, switches mode, masks anything or
transfers control" (R158). What the machine has instead is `emitUnimplemented` (R152) and the fault `rangeError` (R151). -/

namespace Sys2Proof.Machine

/-! ## Addresses (R41) -/

/-- `track(a) = a[11:6]`. -/
def trackOf (a : Addr) : Track := a.extractLsb' 6 6

/-- `sector(a) = a[5:0]`. -/
def sectorOf (a : Addr) : Sector := a.extractLsb' 0 6

/-- `addr(track, sector) = track * 64 + sector`. -/
def flatAddr (t : Track) (s : Sector) : Addr := BitVec.ofNat 12 (t.toNat * Config.sectorsPerTrack + s.toNat)

/-! ## The word array -/

/-- The word at a flat address. -/
def Memory.read (m : Memory) (a : Nat) : Word :=
  match m with
  | [] => unlistedWord
  | (k, v) :: rest => if k = a then v else Memory.read rest a

/-- List a word at its place in a list that does not list its address. -/
def Memory.insert (m : Memory) (a : Nat) (v : Word) : Memory :=
  match m with
  | [] => [(a, v)]
  | (k, u) :: rest => if a < k then (a, v) :: (k, u) :: rest else (k, u) :: Memory.insert rest a v

/-- Replace the word at a flat address and no other; a word that equals `unlistedWord` is not listed (log entry 19). -/
def Memory.write (m : Memory) (a : Nat) (v : Word) : Memory :=
  let others := m.filter (fun c => c.1 != a)
  if v = unlistedWord then others else Memory.insert others a v

/-- `mem[a]` of a state. -/
def wordAt (s : State) (a : Addr) : Word := s.mem.read a.toNat

/-- The state with the word at a flat address replaced, and nothing else. -/
def storeWord (a : Nat) (v : Word) (s : State) : State := { s with mem := s.mem.write a v }

/-! ## The Drum Store's operations (R46 to R50, R64) -/

/-- `Latency(target)` from a given head position, with no negative intermediate (R46). -/
def latencyFrom (head target : Sector) : Nat :=
  if head.toNat ≤ target.toNat then target.toNat - head.toNat
  else Config.sectorsPerTrack - head.toNat + target.toNat

/-- The coordinate range of the Drum Store, 0..63 (R64). -/
def coordInRange (c : Int) : Bool := decide (0 ≤ c) && decide (c < 64)

/-- `raise DrumRangeError` with a track and a sector (R151). -/
def rangeError (track sector : Int) : Fault := .drumRangeError (some track) sector

/-- `Latency(target)` called on its own, with the range check R64 gives its argument. -/
def drumLatency (target : Int) (s : State) : Except Fault Nat :=
  if coordInRange target then .ok (latencyFrom s.head (BitVec.ofInt 6 target))
  else .error (.drumRangeError none target)

/-- The linear address `track*64 + sector` of in-range coordinates (R48). -/
def linearAddress (track sector : Int) : Nat := (track * 64 + sector).toNat

/-- `DrumRead(track, sector) -> (word, wait)` (R48): it changes nothing. -/
def drumRead (track sector : Int) (s : State) : Except Fault (Word × Nat) :=
  if coordInRange track && coordInRange sector then
    .ok (s.mem.read (linearAddress track sector), latencyFrom s.head (BitVec.ofInt 6 sector))
  else .error (rangeError track sector)

/-- `DrumWrite(track, sector, value) -> wait` (R49): it stores at once and does not move the head. -/
def drumWrite (track sector : Int) (v : Word) (s : State) : Except Fault (Nat × State) :=
  if coordInRange track && coordInRange sector then
    .ok (latencyFrom s.head (BitVec.ofInt 6 sector), storeWord (linearAddress track sector) v s)
  else .error (rangeError track sector)

/-- `Tick()`: the only operation that moves the head (R50). -/
def tick (s : State) : State := { s with head := s.head + 1 }

/-- `Tick()` called `n` times, one after the other (R50). `advance` computes its net effect. -/
def tickTimes (n : Nat) (s : State) : State :=
  match n with
  | 0 => s
  | k + 1 => tickTimes k (tick s)

/-! ## The Processing Unit's operations -/

/-- `Advance(n)` (R51), computed as the net effect R51 gives, in one assignment, which R51 allows: the head turned by `n`
modulo 64 and `n` counted in `ticks`. That `n` calls of `tick` give the same state is a statement of its own. -/
def advance (n : Nat) (s : State) : State :=
  { s with head := s.head + BitVec.ofNat 6 n, ticks := s.ticks + n }

/-- `FetchRead(a)` (R92): the word at `a`, at the cost of the wait and one word-time of transfer. -/
def fetchRead (a : Addr) (s : State) : Except Fault (Word × State) :=
  (drumRead (trackOf a).toNat (sectorOf a).toNat s).map fun r => (r.1, advance (r.2 + Config.fetchTransferCost) s)

/-- `MemRead(a, 1)` (R52): the timed operand read, at the cost of the wait alone. -/
def memRead (a : Addr) (s : State) : Except Fault (Word × State) :=
  (drumRead (trackOf a).toNat (sectorOf a).toNat s).map fun r => (r.1, advance r.2 s)

/-- `MemWrite(a, 1, v)` (R53): the timed operand write, at the cost of the wait alone. -/
def memWrite (a : Addr) (v : Word) (s : State) : Except Fault State :=
  (drumWrite (trackOf a).toNat (sectorOf a).toNat v s).map fun r => advance r.1 r.2

/-- Write the accumulator (R23). -/
def setAcc (v : Word) (s : State) : State := { s with acc := v }

/-- `emit Unimplemented(opcode, location)` (R152): one record appended; the location is the `ic` of the step, which the
counter advance has not yet replaced (log entry 8). -/
def emitUnimplemented (c : Opcode) (s : State) : State := { s with events := s.events ++ [⟨c, s.ic⟩] }

/-- The counter advance `ic <- (a + 1) mod 4096` of the instruction fetched from `a` (R95). -/
def counterAdvance (a : Addr) (s : State) : State := { s with ic := a + 1 }

/-- Go on with the answer of an operation, or end in its fault. -/
def orFault {α : Type} (r : Except Fault α) (k : α → Host.Outcome State Fault Refusal) : Host.Outcome State Fault Refusal :=
  match r with
  | .ok x => k x
  | .error f => .fault f

end Sys2Proof.Machine
end

