-- ==== Sys2Proof/Machine/Flags.lean ====
section
/-! DEFINITION. The machine's only flag is `halted`: there is no carry, overflow, zero, sign or other condition code, and no
instruction writes a flag as a side effect (spec/10_state.md R29). -/

namespace Sys2Proof.Machine

/-- Set `halted`, the whole effect of Stop (R25, R120). -/
def setHalted (s : State) : State := { s with halted := true }

end Sys2Proof.Machine
end

