-- ==== Sys2Proof/Machine/Control.lean ====
section
/-! DEFINITION. The execute phase of Stop (spec/42_control.md). No other control transfer exists (R121). -/

namespace Sys2Proof.Machine

/-- Stop: `halted <- true` (R120). -/
def execZ (s : State) : Host.Outcome State Fault Refusal := .next (setHalted s)

end Sys2Proof.Machine
end

