-- ==== Sys2Proof/Machine/Operands.lean ====
section
/-! DEFINITION. The one operand form of the machine: the 12-bit operand field is the absolute drum address. "No base register,
index, displacement, indirection, auto-increment or scaling exists" (spec/41_data_transfer.md). -/

namespace Sys2Proof.Machine

/-- The drum address an operand field names: itself (R72, R73). -/
def effectiveAddress (operand : Addr) : Addr := operand

/-- Read the operand, charging its wait (R52). -/
def readOperand (operand : Addr) (s : State) : Except Fault (Word × State) := memRead (effectiveAddress operand) s

/-- Write the operand, charging its wait (R53). -/
def writeOperand (operand : Addr) (v : Word) (s : State) : Except Fault State := memWrite (effectiveAddress operand) v s

end Sys2Proof.Machine
end

