-- ==== Sys2Proof/Machine/DataTransfer.lean ====
section
/-! DEFINITION. The execute phase of Bring and Hold (spec/41_data_transfer.md). -/

namespace Sys2Proof.Machine

/-- Bring: `acc <- MemRead(operand, 1)` (R110). -/
def execB (operand : Addr) (s : State) : Host.Outcome State Fault Refusal :=
  orFault (readOperand operand s) fun r => .next (setAcc r.1 r.2)

/-- Hold: `MemWrite(operand, 1, acc)`; the accumulator is unchanged (R111). -/
def execH (operand : Addr) (s : State) : Host.Outcome State Fault Refusal :=
  orFault (writeOperand operand s.acc s) .next

end Sys2Proof.Machine
end

