-- ==== Sys2Proof/Machine/Reserved.lean ====
section
/-! DEFINITION. The execute phase of the thirteen reserved opcodes (spec/43_reserved_opcodes.md R125). -/

namespace Sys2Proof.Machine

/-- The one rule of R125 for a generic code: report the event and otherwise do nothing. -/
def execReserved (c : Opcode) (s : State) : Host.Outcome State Fault Refusal := .next (emitUnimplemented c s)

/-- Reserved opcode 0x0 (R125). -/
def execU0 (s : State) : Host.Outcome State Fault Refusal := execReserved 0x0 s

/-- Reserved opcode 0x2 (R125). -/
def execU2 (s : State) : Host.Outcome State Fault Refusal := execReserved 0x2 s

/-- Reserved opcode 0x3 (R125). -/
def execU3 (s : State) : Host.Outcome State Fault Refusal := execReserved 0x3 s

/-- Reserved opcode 0x4 (R125). -/
def execU4 (s : State) : Host.Outcome State Fault Refusal := execReserved 0x4 s

/-- Reserved opcode 0x5 (R125). -/
def execU5 (s : State) : Host.Outcome State Fault Refusal := execReserved 0x5 s

/-- Reserved opcode 0x6 (R125). -/
def execU6 (s : State) : Host.Outcome State Fault Refusal := execReserved 0x6 s

/-- Reserved opcode 0x7 (R125). -/
def execU7 (s : State) : Host.Outcome State Fault Refusal := execReserved 0x7 s

/-- Reserved opcode 0x8 (R125). -/
def execU8 (s : State) : Host.Outcome State Fault Refusal := execReserved 0x8 s

/-- Reserved opcode 0x9 (R125). -/
def execU9 (s : State) : Host.Outcome State Fault Refusal := execReserved 0x9 s

/-- Reserved opcode 0xA (R125). -/
def execUA (s : State) : Host.Outcome State Fault Refusal := execReserved 0xA s

/-- Reserved opcode 0xB (R125). -/
def execUB (s : State) : Host.Outcome State Fault Refusal := execReserved 0xB s

/-- Reserved opcode 0xC (R125). -/
def execUC (s : State) : Host.Outcome State Fault Refusal := execReserved 0xC s

/-- Reserved opcode 0xD (R125). -/
def execUD (s : State) : Host.Outcome State Fault Refusal := execReserved 0xD s

end Sys2Proof.Machine
end

