-- ==== Sys2Proof/Machine/Dispatch.lean ====
section
/-! DEFINITION. The execute phase (spec/40_step_cycle.md R94): one arm per row of the opcode table, dispatched on the opcode
alone. -/

namespace Sys2Proof.Machine

/-- The execute phase of an instruction; fetch, decode and the counter advance are `stepWith`'s (log entry 22). -/
def exec (i : Instr) (s : State) : Host.Outcome State Fault Refusal :=
  match i with
  | .u0 _ => Sys2Proof.Machine.execU0 s
  | .b operand => Sys2Proof.Machine.execB operand s
  | .u2 _ => Sys2Proof.Machine.execU2 s
  | .u3 _ => Sys2Proof.Machine.execU3 s
  | .u4 _ => Sys2Proof.Machine.execU4 s
  | .u5 _ => Sys2Proof.Machine.execU5 s
  | .u6 _ => Sys2Proof.Machine.execU6 s
  | .u7 _ => Sys2Proof.Machine.execU7 s
  | .u8 _ => Sys2Proof.Machine.execU8 s
  | .u9 _ => Sys2Proof.Machine.execU9 s
  | .uA _ => Sys2Proof.Machine.execUA s
  | .uB _ => Sys2Proof.Machine.execUB s
  | .uC _ => Sys2Proof.Machine.execUC s
  | .uD _ => Sys2Proof.Machine.execUD s
  | .h operand => Sys2Proof.Machine.execH operand s
  | .z _ => Sys2Proof.Machine.execZ s

end Sys2Proof.Machine
end

