-- ==== Sys2Proof/Machine/Cycle.lean ====
section
/-! DEFINITION. `Step()` in full: the halted gate, fetch, decode, execute, counter advance (spec/40_step_cycle.md R90). -/

namespace Sys2Proof.Machine

/-- The end of the step that executed the instruction fetched from `a`: the counter advance (R95), for all sixteen opcodes
alike, Stop included (the spec's decision D9; log entry 9). -/
def finishStep (a : Addr) (o : Host.Outcome State Fault Refusal) : Host.Outcome State Fault Refusal :=
  match o with
  | .next s => .next (counterAdvance a s)
  | .fault f => .fault f
  | .refused r => .refused r

/-- Decode and execute the word fetched from `a` (R93, R94), then advance the counter. -/
def runWord (cfg : Config) (a : Addr) (w : Word) (s : State) : Host.Outcome State Fault Refusal :=
  match decodeWith cfg.operandStrict w with
  | .ok i => finishStep a (exec i s)
  | .error (.operandBitsSet bad) => .refused (.operandBitsSet bad)

/-- `Step()` under given parameters (R90); a halted machine does nothing (R91). -/
def stepWith (cfg : Config) (s : State) : Host.Outcome State Fault Refusal :=
  if s.halted then .next s
  else orFault (fetchRead s.ic s) fun r => runWord cfg s.ic r.1 r.2

/-- `n` steps, ending at the first fault or refusal, which are terminal (R151, R155). -/
def stepsWith (cfg : Config) (n : Nat) (s : State) : Host.Outcome State Fault Refusal :=
  match n with
  | 0 => .next s
  | k + 1 =>
    match stepWith cfg s with
    | .next t => stepsWith cfg k t
    | .fault f => .fault f
    | .refused r => .refused r

/-- A running state with the word `w` where the next fetch reads: at `mem[ic]`, with `halted` clear (log entry 17). -/
def placeWord (w : Word) (s : State) : State :=
  { s with mem := s.mem.write s.ic.toNat w, halted := false }

end Sys2Proof.Machine
end

