-- ==== Sys2Proof/Machine/Step.lean ====
section
/-! DEFINITION. One step of the machine with the default parameters, and the placing of a word where it fetches. -/

namespace Sys2Proof.Machine

/-- `Step()` with the default parameters of spec/00_scope.md R5. -/
def step (s : State) : Host.Outcome State Fault Refusal := stepWith Config.default s

/-- The state whose next step fetches the word with the bits `w`, bits at or above `nbits` taken as zero (log entries 17, 18). -/
def State.withFetchWord (s : State) (nbits w : Nat) : State := placeWord (BitVec.ofNat 32 (w % 2 ^ nbits)) s

end Sys2Proof.Machine
end

