-- ==== Sys2Proof/Machine/Reset.lean ====
section
/-! DEFINITION. The two resets (spec/70_reset_and_hazards.md R170, R171), under given parameters. -/

namespace Sys2Proof.Machine

/-- The drum that holds `image a` at every address `a`, in canonical form. It is irreducible, so that no proof unfolds
its 4096 cells by accident; `Memory.read_ofImage` and `Memory.wf_ofImage` say what it is. -/
@[irreducible] def Memory.ofImage (image : Addr → Word) : Memory :=
  (List.range Config.drumWords).filterMap fun a =>
    if image (BitVec.ofNat 12 a) = unlistedWord then none else some (a, image (BitVec.ofNat 12 a))

/-- Machine reset, the construction of a fresh machine (R170); with the default parameters it is `State.reset`. -/
def resetWith (cfg : Config) : State :=
  { mem := Memory.ofImage cfg.drumImage, head := cfg.headReset, acc := 0, ic := 0, halted := false, ticks := 0, events := [] }

/-- Processing-Unit reset: the Drum Store keeps its words and its head (R171: the spec's decision D10; log entry 10). -/
def unitReset (s : State) : State :=
  { s with acc := 0, ic := 0, halted := false, ticks := 0, events := [] }

end Sys2Proof.Machine
end

