-- ==== Sys2Proof/Machine/HostPort.lean ====
section
/-! DEFINITION. What the host may do, and only between steps (spec/50_interfaces.md R133 to R141). -/

namespace Sys2Proof.Machine

/-- What the host sees by inspection (R135). The list is complete: the head is not on it (R31). -/
structure Inspection where
  accumulator : Word
  instructionCounter : Addr
  halted : Bool
  totalElapsedTicks : Nat
  drum : Memory
  deriving DecidableEq, Repr

/-- Inspection: the current values (R135). -/
def inspect (s : State) : Inspection :=
  { accumulator := s.acc, instructionCounter := s.ic, halted := s.halted, totalElapsedTicks := s.ticks, drum := s.mem }

/-- The reported events, which the host may read at any time between steps and cannot modify (R138). -/
def reportedEvents (s : State) : List Event := s.events

/-- The host's untimed read of one drum word (R135), with its range check (R141). -/
def hostRead (track sector : Int) (s : State) : Except Fault Word :=
  if coordInRange track && coordInRange sector then .ok (s.mem.read (linearAddress track sector))
  else .error (rangeError track sector)

/-- `HostWrite(track, sector, value)` (R136): untimed, the low 32 bits of the value (the spec's decision D2; log entry 3). -/
def hostWrite (track sector value : Int) (s : State) : Except Fault State :=
  if coordInRange track && coordInRange sector then
    .ok (storeWord (linearAddress track sector) (BitVec.ofInt 32 value) s)
  else .error (rangeError track sector)

/-- The elements of a run of the whole system (R139). -/
inductive Action where
  /-- One call of `step()` (R137). -/
  | step
  /-- A direct word write (R136). -/
  | write (track sector value : Int)
  /-- A read of one drum word (R135). -/
  | read (track sector : Int)
  /-- Inspection of the registers and the drum (R135). -/
  | inspect
  /-- A read of the reported events (R138). -/
  | readEvents
  /-- Machine reset: a fresh Drum Store and a fresh Processing Unit (R170). -/
  | machineReset
  /-- Reconstruction of the Processing Unit alone (R171). -/
  | unitReset
  deriving DecidableEq, Repr

/-- One action of a run. -/
def act (cfg : Config) (x : Action) (s : State) : Host.Outcome State Fault Refusal :=
  match x with
  | .step => stepWith cfg s
  | .write t c v => orFault (hostWrite t c v s) .next
  | .read t c => orFault (hostRead t c s) fun _ => .next s
  | .inspect => .next s
  | .readEvents => .next s
  | .machineReset => .next (resetWith cfg)
  | .unitReset => .next (unitReset s)

/-- A run: its actions in order, ending at the first fault or refusal, which are terminal (R151, R155). -/
def runActions (cfg : Config) (xs : List Action) (s : State) : Host.Outcome State Fault Refusal :=
  match xs with
  | [] => .next s
  | x :: rest =>
    match act cfg x s with
    | .next t => runActions cfg rest t
    | .fault f => .fault f
    | .refused r => .refused r

end Sys2Proof.Machine
end

