-- ==== Sys2Proof/Machine/Timing.lean ====
section
/-! DEFINITION. The cost of a step in word-times as the spec's cost tables give it (spec/40_step_cycle.md R99,
70_reset_and_hazards.md R181). `stepWith` does not use these: it charges what its accesses report. -/

namespace Sys2Proof.Machine

/-- `((s - h) mod 64) + 1`, with `s` the sector of the instruction's address and `h` the head before the step. -/
def fetchCost (h : Sector) (a : Addr) : Nat := (sectorOf a - h).toNat + Config.fetchTransferCost

/-- `(t - (s + 1)) mod 64` for B and H with operand sector `t`, fetched from sector `s`; zero for the rest. -/
def execCost (i : Instr) (a : Addr) : Nat :=
  match i.drumOperand with
  | some operand => (sectorOf operand - (sectorOf a + 1)).toNat + Config.execOverhead
  | none => Config.execOverhead

/-- The instruction the next step executes if the machine is running. -/
def nextInstr (s : State) : Instr := decode (wordAt s s.ic)

/-- The whole cost of the next step: fetch and execute, or nothing when halted. -/
def stepCost (s : State) : Nat :=
  if s.halted then 0 else fetchCost s.head s.ic + execCost (nextInstr s) s.ic

end Sys2Proof.Machine
end

