-- ==== Sys2Proof/Safety.lean ====
section
/-! DEFINITION. What claims are stated in terms of: when a run is safe and when it has ended, the invariants of
spec/10_state.md R33, and the functional state of spec/40_step_cycle.md R101. -/

namespace Sys2Proof

open Sys2Proof.Machine

/-- The notation `v[hi:lo]` of spec/00_scope.md R7, on its own words: `(v >> lo) mod 2^(hi-lo+1)`. The decoder does not use it. -/
def bitField (w : Word) (hi lo : Nat) : Nat := (w.toNat >>> lo) % 2 ^ (hi - lo + 1)

/-- `w[13:2]` as an address, for statements about words. -/
def operandField (w : Word) : Addr := BitVec.ofNat 12 (bitField w 13 2)

/-- The next state of an outcome, if it has one. -/
def nextState (o : Host.Outcome State Fault Refusal) : Option State :=
  match o with
  | .next s => some s
  | .fault _ => none
  | .refused _ => none

/-- An outcome is safe when the machine neither faults (R151) nor is refused (R155). -/
abbrev Safe (o : Host.Outcome State Fault Refusal) : Prop := (nextState o).isSome = true

/-- A run has ended when the machine is halted, and nothing else ends it (R177). -/
abbrev Ended (s : State) : Prop := s.halted = true

/-- The clock invariant of R33 (e): the head has turned by `ticks` from the position `h0` it had at the last reset. -/
abbrev ClockInvariant (h0 : Sector) (s : State) : Prop := s.head = h0 + BitVec.ofNat 6 s.ticks

/-- Two states with one functional state (R101): they may differ in `head` and `ticks` alone. -/
abbrev FunctionalEq (s t : State) : Prop :=
  s.mem = t.mem ∧ s.acc = t.acc ∧ s.ic = t.ic ∧ s.halted = t.halted ∧ s.events = t.events

/-- Two outcomes with one functional content: states with one functional state, or the same stop for the same reason. -/
def FunctionalOutcomeEq (o p : Host.Outcome State Fault Refusal) : Prop :=
  match o, p with
  | .next s, .next t => FunctionalEq s t
  | .fault f, .fault g => f = g
  | .refused r, .refused q => r = q
  | _, _ => False

/-- The wait of the next fetch: the word-times until the sector of `ic` is under the head. -/
def fetchWait (s : State) : Nat := latencyFrom s.head (sectorOf s.ic)

/-- Whether the next step is a Bring or a Hold whose operand is not in the sector after its own (R103 b, R182). -/
def badlyPlaced (s : State) : Bool :=
  match (nextInstr s).drumOperand with
  | some operand => decide (sectorOf operand ≠ sectorOf s.ic + 1)
  | none => false

/-- The states a run of `n` steps starts its steps from, in order; a step that gives no next state ends the list. -/
def stepTrace (cfg : Config) (n : Nat) (s : State) : List State :=
  match n with
  | 0 => []
  | k + 1 =>
    match stepWith cfg s with
    | .next t => s :: stepTrace cfg k t
    | .fault _ => [s]
    | .refused _ => [s]

end Sys2Proof
end

