-- ==== Sys2Proof/Certificates/Slice0/Obligations.lean ====
section
/-! DEFINITION. The statements for the provers. Each docstring says which rule of spec/ it formalises and, where a clause rests
on a decision or an inference the spec marks as its own, which one. -/

open Sys2Proof Sys2Proof.Machine

/-! ## Encoding (spec/30_encoding.md) -/

/-- R79: `Decode(Encode(c, a)) = (c, a)` for every instruction at every operand, under both values of `OPERAND_STRICT`; and
encoding what a word decodes to clears exactly its ignored bits. Rests on the spec's decisions D4 (operand field, log entry 4)
and D14 (canonical word, log entry 15). -/
def Obligations.EncodeDecodeRoundTrip : Prop :=
  (∀ (i : Instr) (strict : Bool), decode (encode i) = i ∧ decodeWith strict (encode i) = .ok i) ∧
  ∀ w : Word, encode (decode w) = w &&& 0x000F3FFC

/-- R74: two words are the same instruction with the same operand exactly when they agree on `w[19:16]` and `w[13:2]`; all
other bits are ignored. That bits 15:14 are among the ignored ones is the spec's decision D4 (log entry 4). -/
def Obligations.DecodeIgnoresUnusedBits : Prop :=
  ∀ v w : Word, decode v = decode w ↔
    bitField v 19 16 = bitField w 19 16 ∧ bitField v 13 2 = bitField w 13 2

/-- R75: the opcode map, row by row, with the operand of R72 (decision D4, log entry 4; the names of the reserved rows are
decision D13, log entry 15). The sixteen premises cover every word, and no two hold of one word. -/
def Obligations.OpcodeMapRows : Prop :=
  ∀ w : Word,
    (bitField w 19 16 = 0x0 → decode w = .u0 (operandField w)) ∧ (bitField w 19 16 = 0x1 → decode w = .b (operandField w)) ∧
    (bitField w 19 16 = 0x2 → decode w = .u2 (operandField w)) ∧ (bitField w 19 16 = 0x3 → decode w = .u3 (operandField w)) ∧
    (bitField w 19 16 = 0x4 → decode w = .u4 (operandField w)) ∧ (bitField w 19 16 = 0x5 → decode w = .u5 (operandField w)) ∧
    (bitField w 19 16 = 0x6 → decode w = .u6 (operandField w)) ∧ (bitField w 19 16 = 0x7 → decode w = .u7 (operandField w)) ∧
    (bitField w 19 16 = 0x8 → decode w = .u8 (operandField w)) ∧ (bitField w 19 16 = 0x9 → decode w = .u9 (operandField w)) ∧
    (bitField w 19 16 = 0xA → decode w = .uA (operandField w)) ∧ (bitField w 19 16 = 0xB → decode w = .uB (operandField w)) ∧
    (bitField w 19 16 = 0xC → decode w = .uC (operandField w)) ∧ (bitField w 19 16 = 0xD → decode w = .uD (operandField w)) ∧
    (bitField w 19 16 = 0xE → decode w = .h (operandField w)) ∧ (bitField w 19 16 = 0xF → decode w = .z (operandField w))

/-- A few words written out from the encoding, the vectors V5 of spec/95_test_vectors.md, decode as V5 says. The one with bits
15:14 set rests on decision D4 (log entry 4). -/
def Obligations.SpecWordsDecode : Prop :=
  decode 0x00010314 = .b 197 ∧ decode 0x000E0100 = .h 64 ∧ decode 0x000F0000 = .z 0 ∧ decode 0x00000000 = .u0 0 ∧
  decode 0xFFFFFFFF = .z 4095 ∧ decode 0xFFF1FFFF = .b 4095 ∧ decode 0x0001C314 = .b 197 ∧ decode 0xABC50003 = .u5 0 ∧
  decode 0x0000ABCD = .u0 2803

/-- R73 and R155: with `OPERAND_STRICT` a running machine that fetches a word with `w[15:14]` not zero is refused and one that
fetches any other word steps as by default; without it nothing is ever refused. The parameter is the spec's decision D4 (log
entry 4). -/
def Obligations.StrictRefusesBits15And14 : Prop :=
  ∀ (cfg : Config) (s : State), s.halted = false →
    (cfg.operandStrict = true → bitField (wordAt s s.ic) 15 14 ≠ 0 →
      stepWith cfg s = .refused (.operandBitsSet (wordAt s s.ic))) ∧
    (cfg.operandStrict = true → bitField (wordAt s s.ic) 15 14 = 0 → stepWith cfg s = step s) ∧
    (cfg.operandStrict = false → stepWith cfg s = step s)

/-! ## The Drum Store (spec/20_memory.md) -/

/-- R46, whole: the formula, that it is `(target - head) mod 64`, its range, that 0 means the target is under the head, and that
the result is the number of ticks after which the head is at the target for the first time. The two-argument form of conflict C4
is this one in a state with that head. The operation answers a number and no state, so it mutates nothing. -/
def Obligations.LatencyFormula : Prop :=
  ∀ (s : State) (target : Sector), ∃ n : Nat,
    drumLatency target.toNat s = .ok n ∧
    n = (if target.toNat ≥ s.head.toNat then target.toNat - s.head.toNat else 64 - s.head.toNat + target.toNat) ∧
    (n : Int) = ((target.toNat : Int) - s.head.toNat) % 64 ∧ n ≤ 63 ∧ (n = 0 ↔ target = s.head) ∧
    (tickTimes n s).head = target ∧ ∀ k, k < n → (tickTimes k s).head ≠ target

/-- R47: the laws of `Latency`, for a machine `s` with its head at `c` and a machine `u` with its head at `t`, with D0's three
examples. Clauses (c) and (d) of that rule are inferences the spec marks as its own ("derived: (c), (d) from rule R46"). -/
def Obligations.LatencyLaws : Prop :=
  ∀ s u : State, ∃ there back : Nat,
    drumLatency u.head.toNat s = .ok there ∧ drumLatency s.head.toNat u = .ok back ∧
    there ≤ 63 ∧ (there = 0 ↔ u.head = s.head) ∧ (s.head.toNat + there) % 64 = u.head.toNat ∧
    (there + back = if s.head = u.head then 0 else 64) ∧
    (s.head = 0 → drumLatency 63 s = .ok 63) ∧ (s.head = 63 → drumLatency 0 s = .ok 1) ∧ drumLatency s.head.toNat s = .ok 0

/-- R42: "Only the sector of an address enters the latency": two addresses with one sector have one wait, from any head
position, whatever their tracks. -/
def Obligations.TrackSelectionIsFree : Prop :=
  ∀ (s t : State) (a b : Addr), s.head = t.head → sectorOf a = sectorOf b →
    ∃ (v w : Word) (wait : Nat),
      drumRead (trackOf a).toNat (sectorOf a).toNat s = .ok (v, wait) ∧
      drumRead (trackOf b).toNat (sectorOf b).toNat t = .ok (w, wait)

/-- R41, whole: the two maps by their formulas, that they are inverse bijections between pairs and 0..4095, and that the flat
form of a Drum Store access means the pair form applied to the track and the sector of the address. -/
def Obligations.AddressFormsAreEquivalent : Prop :=
  (∀ (t : Track) (c : Sector), (flatAddr t c).toNat = t.toNat * 64 + c.toNat ∧
    trackOf (flatAddr t c) = t ∧ sectorOf (flatAddr t c) = c) ∧
  (∀ a : Addr, (trackOf a).toNat = bitField (a.setWidth 32) 11 6 ∧ (trackOf a).toNat = (a.toNat >>> 6) &&& 0x3F ∧
    (sectorOf a).toNat = bitField (a.setWidth 32) 5 0 ∧ (sectorOf a).toNat = a.toNat &&& 0x3F ∧
    flatAddr (trackOf a) (sectorOf a) = a) ∧
  ∀ (a : Addr) (s : State), drumRead (trackOf a).toNat (sectorOf a).toNat s = .ok (s.mem.read a.toNat, latencyFrom s.head (sectorOf a))

/-- R48: `DrumRead` answers the word at `track*64+sector` and the latency of the sector, or raises the range error with its
arguments. It answers no state, so it is pure; a second call with no write or tick in between is the same call. -/
def Obligations.DrumReadContract : Prop :=
  ∀ (s : State) (track sector : Int),
    (0 ≤ track ∧ track < 64 ∧ 0 ≤ sector ∧ sector < 64 →
      ∃ wait : Nat, drumRead track sector s = .ok (s.mem.read (track * 64 + sector).toNat, wait) ∧ drumLatency sector s = .ok wait) ∧
    (¬ (0 ≤ track ∧ track < 64 ∧ 0 ≤ sector ∧ sector < 64) →
      drumRead track sector s = .error (.drumRangeError (some track) sector))

/-- R49: `DrumWrite` replaces the one word at `track*64+sector`, moves nothing, answers the same latency as `DrumRead`, and what
it stored is what every read of that address answers from then on, an instruction fetch included; out of range it stores
nothing and raises the range error. -/
def Obligations.DrumWriteContract : Prop :=
  ∀ (s : State) (track sector : Int) (v : Word),
    (0 ≤ track ∧ track < 64 ∧ 0 ≤ sector ∧ sector < 64 →
      ∃ (wait : Nat) (t : State),
        drumWrite track sector v s = .ok (wait, t) ∧ drumLatency sector s = .ok wait ∧ t = { s with mem := t.mem } ∧
        (∀ a : Nat, t.mem.read a = if a = (track * 64 + sector).toNat then v else s.mem.read a) ∧
        drumRead track sector t = .ok (v, wait) ∧
        ∃ u : State, fetchRead (BitVec.ofNat 12 (track * 64 + sector).toNat) t = .ok (v, u)) ∧
    (¬ (0 ≤ track ∧ track < 64 ∧ 0 ≤ sector ∧ sector < 64) →
      drumWrite track sector v s = .error (.drumRangeError (some track) sector))

/-- R64: a coordinate outside 0..63 is an out-of-range error of every Drum Store operation that takes one, `Latency` on its own
included, and is never wrapped, masked or clamped; coordinates in range are never an error. -/
def Obligations.RangeCheckIsExact : Prop :=
  ∀ (s : State) (track sector : Int) (v : Word),
    ((∃ r, drumRead track sector s = .ok r) ↔ 0 ≤ track ∧ track < 64 ∧ 0 ≤ sector ∧ sector < 64) ∧
    ((∃ r, drumWrite track sector v s = .ok r) ↔ 0 ≤ track ∧ track < 64 ∧ 0 ≤ sector ∧ sector < 64) ∧
    ((∃ n, drumLatency sector s = .ok n) ↔ 0 ≤ sector ∧ sector < 64) ∧
    ∀ f : Fault, (drumRead track sector s = .error f ∨ drumWrite track sector v s = .error f → f = .drumRangeError (some track) sector) ∧
      (drumLatency sector s = .error f → ∃ tr, f = .drumRangeError tr sector)

/-- R50: `Tick` advances the head by 1 modulo 64 and changes nothing else, and 64 of them restore it from any position. (The
rule's last clause, about `n` calls, is an inference the spec marks as its own; `AdvanceIsTicks` states it.) -/
def Obligations.TickTurnsHeadByOne : Prop :=
  ∀ s : State, (tick s).head.toNat = (s.head.toNat + 1) % 64 ∧ tick s = { s with head := (tick s).head } ∧ tickTimes 64 s = s

/-- R51: `Advance(n)` is `n` calls of `Tick` and `ticks + n`; its net effect; it composes; `Advance(0)` changes nothing. -/
def Obligations.AdvanceIsTicks : Prop :=
  ∀ (n m : Nat) (s : State),
    advance n s = { tickTimes n s with ticks := s.ticks + n } ∧ (tickTimes n s).head.toNat = (s.head.toNat + n) % 64 ∧
    (advance n s).head.toNat = (s.head.toNat + n) % 64 ∧ (advance n s).ticks = s.ticks + n ∧
    advance m (advance n s) = advance (n + m) s ∧ advance 0 s = s

/-- R52: the timed operand read answers the word, costs the read's latency and nothing more, and leaves the head at the sector
of the address. -/
def Obligations.MemReadTimed : Prop :=
  ∀ (a : Addr) (s : State), ∃ (w : Word) (wait : Nat),
    drumRead (trackOf a).toNat (sectorOf a).toNat s = .ok (w, wait) ∧ w = s.mem.read a.toNat ∧
    memRead a s = .ok (w, { s with head := sectorOf a, ticks := s.ticks + wait })

/-- R53: the timed operand write stores the word, costs the write's latency and nothing more, and leaves the head at the sector
of the address; advancing first and storing then gives the same state. -/
def Obligations.MemWriteTimed : Prop :=
  ∀ (a : Addr) (v : Word) (s : State), ∃ (wait : Nat) (t u : State),
    drumWrite (trackOf a).toNat (sectorOf a).toNat v s = .ok (wait, u) ∧ memWrite a v s = .ok t ∧
    t = { u with head := sectorOf a, ticks := s.ticks + wait } ∧ t.mem.read a.toNat = v ∧
    ∃ later : Nat, drumWrite (trackOf a).toNat (sectorOf a).toNat v (advance wait s) = .ok (later, t)

/-- R92: the fetch answers the word at the address and costs the wait and one word-time, 1 to 64 in all; that the head is then
one sector past the address "whatever `head` was before" is an inference the spec marks as its own. -/
def Obligations.FetchTimed : Prop :=
  ∀ (a : Addr) (s : State), ∃ (w : Word) (wait : Nat),
    drumRead (trackOf a).toNat (sectorOf a).toNat s = .ok (w, wait) ∧ w = s.mem.read a.toNat ∧
    1 ≤ wait + 1 ∧ wait + 1 ≤ 64 ∧
    fetchRead a s = .ok (w, { s with head := sectorOf a + 1, ticks := s.ticks + (wait + 1) })

/-- The model's representation of the drum (log entry 19) is canonical: two well-formed memories that read alike at all 4096
addresses are the same list. -/
def Obligations.CanonicalDrumIsUnique : Prop :=
  ∀ m n : Memory, m.wf → n.wf → (∀ a : Nat, a < 4096 → m.read a = n.read a) → m = n

/-! ## The execute phase of each instruction (41, 42, 43) -/

/-- R110, the execute phase of Bring, `exec (.b operand)`: it always completes, all 32 bits of the word into `acc`, the head at
the operand's sector, the wait in `ticks`, and nothing else changed. -/
def Obligations.BringExecutes : Prop :=
  ∀ (operand : Addr) (s : State),
    exec (.b operand) s = .next
      { s with acc := s.mem.read operand.toNat, head := sectorOf operand, ticks := s.ticks + (sectorOf operand - s.head).toNat }

/-- R111, the execute phase of Hold, `exec (.h operand)`: it always completes; the word at the operand is `acc`, every other
word is as it was, the head is at the operand's sector, the wait is in `ticks`, and nothing else changed. -/
def Obligations.HoldExecutes : Prop :=
  ∀ (operand : Addr) (s : State), ∃ t : State,
    exec (.h operand) s = .next t ∧
    t = { s with mem := t.mem, head := sectorOf operand, ticks := s.ticks + (sectorOf operand - s.head).toNat } ∧
    ∀ a : Nat, t.mem.read a = if a = operand.toNat then s.acc else s.mem.read a

/-- R120, the execute phase of Stop, `exec (.z _)`: it always completes; `halted` is set and nothing else changes. -/
def Obligations.StopExecutes : Prop :=
  ∀ (operand : Addr) (s : State), exec (.z operand) s = .next { s with halted := true }

/-- R125, the execute phase of the thirteen reserved opcodes: each always completes, with one record of its own code appended
and nothing else changed. That the record's location is the address of the instruction, which `ic` still holds in this phase,
is the spec's decision D8 (log entry 8). -/
def Obligations.ReservedExecute : Prop :=
  ∀ (a : Addr) (s : State),
    exec (.u0 a) s = .next { s with events := s.events ++ [⟨0x0, s.ic⟩] } ∧
    exec (.u2 a) s = .next { s with events := s.events ++ [⟨0x2, s.ic⟩] } ∧
    exec (.u3 a) s = .next { s with events := s.events ++ [⟨0x3, s.ic⟩] } ∧
    exec (.u4 a) s = .next { s with events := s.events ++ [⟨0x4, s.ic⟩] } ∧
    exec (.u5 a) s = .next { s with events := s.events ++ [⟨0x5, s.ic⟩] } ∧
    exec (.u6 a) s = .next { s with events := s.events ++ [⟨0x6, s.ic⟩] } ∧
    exec (.u7 a) s = .next { s with events := s.events ++ [⟨0x7, s.ic⟩] } ∧
    exec (.u8 a) s = .next { s with events := s.events ++ [⟨0x8, s.ic⟩] } ∧
    exec (.u9 a) s = .next { s with events := s.events ++ [⟨0x9, s.ic⟩] } ∧
    exec (.uA a) s = .next { s with events := s.events ++ [⟨0xA, s.ic⟩] } ∧
    exec (.uB a) s = .next { s with events := s.events ++ [⟨0xB, s.ic⟩] } ∧
    exec (.uC a) s = .next { s with events := s.events ++ [⟨0xC, s.ic⟩] } ∧
    exec (.uD a) s = .next { s with events := s.events ++ [⟨0xD, s.ic⟩] }

/-- The frame of the execute phase of all sixteen instructions: `acc` changes by Bring alone, memory by Hold alone and only at
its operand address (`effectiveAddress operand`), `halted` by Stop alone, `events` by the reserved opcodes alone, the head and
the clock by Bring and Hold alone, and `ic` by none. -/
def Obligations.ExecuteFrame : Prop :=
  ∀ (i : Instr) (s t : State), exec i s = .next t →
    t.ic = s.ic ∧
    (t.acc = s.acc ∨ ∃ operand, i = .b operand) ∧
    (∀ a : Nat, t.mem.read a = s.mem.read a ∨ ∃ operand, i = .h operand ∧ a = (effectiveAddress operand).toNat) ∧
    (t.halted = s.halted ∨ ∃ operand, i = .z operand) ∧
    (t.events = s.events ∨ i.opcode ≠ 0x1 ∧ i.opcode ≠ 0xE ∧ i.opcode ≠ 0xF) ∧
    (t.head = s.head ∧ t.ticks = s.ticks ∨ ∃ operand, i = .b operand ∨ i = .h operand)

/-! ## The step (spec/40_step_cycle.md) -/

/-- R91: "If `halted` is true, `step()` is a no-op": no state changes, it is not an error, and so for every later step. -/
def Obligations.HaltedGate : Prop :=
  ∀ (cfg : Config) (s : State), s.halted = true → stepWith cfg s = .next s ∧ ∀ n, stepsWith cfg n s = .next s

/-- R90: when the word at `ic` decodes to the instruction `i`, the step of a running machine is `exec i`, after the fetch has
been charged (wait and one word-time) and before the counter advance. Every instruction is well formed. -/
def Obligations.StepRunsDecodedInstruction : Prop :=
  ∀ (s : State) (i : Instr), s.halted = false → decode (s.mem.read s.ic.toNat) = i →
    step s =
      match exec i (advance (latencyFrom s.head (sectorOf s.ic) + 1) s) with
      | .next t => .next { t with ic := s.ic + 1 }
      | .fault f => .fault f
      | .refused r => .refused r

/-- R110 as one step: a running machine whose word at `ic` has opcode 0x1, whatever its ignored bits. The operand is `w[13:2]`
by the spec's decision D4 (log entry 4). -/
def Obligations.BringStep : Prop :=
  ∀ (s : State) (operand : Addr), s.halted = false → bitField (wordAt s s.ic) 19 16 = 0x1 → operandField (wordAt s s.ic) = operand →
    step s = .next
      { s with
        acc := wordAt s operand
        head := sectorOf operand
        ticks := s.ticks + (((sectorOf s.ic - s.head).toNat + 1) + (sectorOf operand - (sectorOf s.ic + 1)).toNat)
        ic := s.ic + 1 }

/-- R111 as one step: a running machine whose word at `ic` has opcode 0xE. Decision D4 as in `BringStep`. -/
def Obligations.HoldStep : Prop :=
  ∀ (s : State) (operand : Addr), s.halted = false → bitField (wordAt s s.ic) 19 16 = 0xE → operandField (wordAt s s.ic) = operand →
    ∃ t : State,
      step s = .next t ∧
      t = { s with
            mem := t.mem
            head := sectorOf operand
            ticks := s.ticks + (((sectorOf s.ic - s.head).toNat + 1) + (sectorOf operand - (sectorOf s.ic + 1)).toNat)
            ic := s.ic + 1 } ∧
      ∀ a : Nat, t.mem.read a = if a = operand.toNat then s.acc else s.mem.read a

/-- R120 as one step: a running machine whose word at `ic` has opcode 0xF halts, and its counter advances on that step too (the
spec's decision D9, log entry 9). -/
def Obligations.StopStep : Prop :=
  ∀ s : State, s.halted = false → bitField (wordAt s s.ic) 19 16 = 0xF →
    step s = .next
      { s with
        halted := true
        head := sectorOf s.ic + 1
        ticks := s.ticks + ((sectorOf s.ic - s.head).toNat + 1)
        ic := s.ic + 1 }

/-- R125 as one step: a running machine whose word at `ic` has an opcode not in 0x1, 0xE, 0xF reports it with the address of
that word (decision D8, log entry 8), pays the fetch, advances the counter and does nothing else. -/
def Obligations.ReservedStep : Prop :=
  ∀ (s : State) (c : Opcode), s.halted = false → bitField (wordAt s s.ic) 19 16 = c.toNat → c ≠ 0x1 → c ≠ 0xE → c ≠ 0xF →
    step s = .next
      { s with
        events := s.events ++ [⟨c, s.ic⟩]
        head := sectorOf s.ic + 1
        ticks := s.ticks + ((sectorOf s.ic - s.head).toNat + 1)
        ic := s.ic + 1 }

/-- R98: what a step may change, per opcode; everything else is as it was. The table is an inference the spec marks as its own,
and the operand rests on decision D4 (log entry 4). -/
def Obligations.StepFrame : Prop :=
  ∀ s t : State, step s = .next t →
    (s.halted = true → t = s) ∧
    (s.halted = false → t.ic = s.ic + 1) ∧
    (t.acc ≠ s.acc → s.halted = false ∧ bitField (wordAt s s.ic) 19 16 = 0x1 ∧ t.acc = wordAt s (operandField (wordAt s s.ic))) ∧
    (∀ a : Nat, t.mem.read a ≠ s.mem.read a →
      s.halted = false ∧ bitField (wordAt s s.ic) 19 16 = 0xE ∧ a = (operandField (wordAt s s.ic)).toNat ∧ t.mem.read a = s.acc) ∧
    (t.halted ≠ s.halted → bitField (wordAt s s.ic) 19 16 = 0xF ∧ t.halted = true) ∧
    (t.events ≠ s.events → s.halted = false ∧ bitField (wordAt s s.ic) 19 16 ∉ [0x1, 0xE, 0xF])

/-- R104 and R65: a step always answers a next state, for every content of the drum, and so does every number of steps. R104 is
an inference the spec marks as its own. -/
def Obligations.StepNeverFaults : Prop :=
  ∀ (cfg : Config) (s : State), cfg.operandStrict = false → Safe (step s) ∧ ∀ n, Safe (stepsWith cfg n s)

/-- R99 and R181: the cost of a step is the table's, between 1 and 127 word-times for a running machine and at most 64 when the
instruction makes no operand access. The rules are inferences the spec marks as its own. -/
def Obligations.StepCostIsTable : Prop :=
  ∀ s t : State, step s = .next t →
    t.ticks = s.ticks + stepCost s ∧
    (s.halted = true → stepCost s = 0) ∧
    (s.halted = false → 1 ≤ stepCost s ∧ stepCost s ≤ 127) ∧
    (s.halted = false → (nextInstr s).drumOperand = none → stepCost s ≤ 64)

/-- R183: the dearest step, 127 word-times, is exactly a Bring or a Hold whose fetch waits 63 and whose operand lies in its own
sector (an inference the spec marks as its own). -/
def Obligations.DearestStep : Prop :=
  ∀ s t : State, s.halted = false → step s = .next t →
    (t.ticks = s.ticks + 127 ↔
      fetchWait s = 63 ∧ ∃ operand, (nextInstr s = .b operand ∨ nextInstr s = .h operand) ∧ sectorOf operand = sectorOf s.ic)

/-- R100: the head after an executed step is a function of the instruction and its address alone (an inference the spec marks
as its own), and a halted step leaves it. -/
def Obligations.HeadAfterStep : Prop :=
  ∀ s t : State, step s = .next t →
    t.head = if s.halted then s.head else
      match nextInstr s with
      | .b operand => sectorOf operand
      | .h operand => sectorOf operand
      | _ => sectorOf s.ic + 1

/-- R31: the head before an executed step influences only the `ticks` charged to that step: two machines that differ in `head`
alone differ, after one executed step, in `ticks` alone (an inference the spec marks as its own). -/
def Obligations.HeadInfluencesOneStepOnly : Prop :=
  ∀ (s t : State) (h : Sector), s.halted = false → step s = .next t →
    step { s with head := h } = .next { t with ticks := s.ticks + ((sectorOf s.ic - h).toNat + 1) + execCost (nextInstr s) s.ic }

/-- R97, whole: the machine starts in `RUNNING`; a running machine's step leads to `HALTED` exactly when it executes a Stop;
`HALTED` has no transition but the no-op step, and nothing short of a reset leaves it; no host operation enters it; a run with no
Stop on its path never halts, and so the default drum with no program loaded. -/
def Obligations.OnlyStopHalts : Prop :=
  State.reset.halted = false ∧
  (∀ s t : State, s.halted = false → step s = .next t → (t.halted = true ↔ bitField (wordAt s s.ic) 19 16 = 0xF)) ∧
  (∀ s : State, s.halted = true → step s = .next s) ∧
  (∀ (cfg : Config) (x : Action) (s t : State), x ≠ .machineReset → x ≠ .unitReset → act cfg x s = .next t →
    (s.halted = true → t.halted = true) ∧ (x ≠ .step → t.halted = s.halted)) ∧
  (∀ (n : Nat) (s t : State), s.halted = false → stepsWith Config.default n s = .next t →
    (∀ u ∈ stepTrace Config.default n s, bitField (wordAt u u.ic) 19 16 ≠ 0xF) → t.halted = false) ∧
  ∀ (n : Nat) (t : State), stepsWith Config.default n State.reset = .next t → t.halted = false

/-- R177: a step that ends a run was a Stop, and it stands at `(ic - 1) mod 4096` of the state it leaves. That the counter has
moved past it is the spec's decision D9 (log entry 9). -/
def Obligations.EndedRunStandsPastItsStop : Prop :=
  ∀ s t : State, s.halted = false → step s = .next t → Ended t →
    t.ic - 1 = s.ic ∧ bitField (wordAt t (t.ic - 1)) 19 16 = 0xF

/-- R27, R157: a step appends at most one record, exactly when it executes a reserved opcode, and keeps all earlier ones in
their order; R138: the host may read the events and cannot modify them. The record's location and the keeping of the list rest on
decision D8 (log entry 8). -/
def Obligations.EventsRecordReservedOpcodes : Prop :=
  (∀ s t : State, step s = .next t →
    t.events = s.events ++
      if s.halted = false ∧ bitField (wordAt s s.ic) 19 16 ∉ [0x1, 0xE, 0xF]
      then [⟨BitVec.ofNat 4 (bitField (wordAt s s.ic) 19 16), s.ic⟩] else []) ∧
  ∀ (cfg : Config) (s : State), act cfg .readEvents s = .next s ∧ reportedEvents s = s.events

/-- R121: the only successor of the instruction at `a` is the one at `(a + 1) mod 4096`: a machine that is still running after
`n` steps has its counter `n` further, whatever was executed and whatever a Hold has stored; and the only departure is the end of
the run by a Stop that one of the steps executed. -/
def Obligations.CounterIsSequential : Prop :=
  ∀ (n : Nat) (s t : State), stepsWith Config.default n s = .next t →
    (t.halted = false → t.ic.toNat = (s.ic.toNat + n) % 4096) ∧
    (t.halted = true → s.halted = true ∨
      ∃ u ∈ stepTrace Config.default n s, u.halted = false ∧ bitField (wordAt u u.ic) 19 16 = 0xF)

/-- R102: elapsed time is the sum of the costs of the steps, a halted step counting 0. D0 says it for programs without Stop; for
every run it is an inference the spec marks as its own. -/
def Obligations.ElapsedTimeIdentity : Prop :=
  ∀ (n : Nat) (s t : State), stepsWith Config.default n s = .next t →
    t.ticks = s.ticks + ((stepTrace Config.default n s).map stepCost).sum

/-- R103: (a) after a step that makes no operand access, the next fetch of a machine still running costs 1; (b) after a Bring or
a Hold the execute cost and the next fetch wait are together 0 or one whole revolution (inferences the spec marks as its own). -/
def Obligations.StraightLineCosts : Prop :=
  ∀ s t : State, s.halted = false → step s = .next t →
    ((nextInstr s).drumOperand = none → fetchCost t.head t.ic = 1) ∧
    ∀ operand, nextInstr s = .b operand ∨ nextInstr s = .h operand →
      execCost (nextInstr s) s.ic + fetchWait t = if sectorOf operand = sectorOf s.ic + 1 then 0 else 64

/-- R182: placement and time. Over `n` executed steps from any state, elapsed time plus the wait still to be paid is `n` plus 64
for every badly placed Bring or Hold, plus the wait the first fetch had to pay; from reset that wait is `(0 - HEAD_RESET) mod 64`
(an inference the spec marks as its own). -/
def Obligations.PlacementAndTime : Prop :=
  (∀ (n : Nat) (s t : State), stepsWith Config.default n s = .next t →
    (∀ u ∈ stepTrace Config.default n s, u.halted = false) →
    t.ticks + fetchWait t = s.ticks + fetchWait s + n + 64 * (stepTrace Config.default n s).countP badlyPlaced) ∧
  ∀ cfg : Config, (fetchWait (resetWith cfg) : Int) = (0 - (cfg.headReset.toNat : Int)) % 64

/-- R62: a word stored by Hold over the next instruction is the word the very next step fetches and executes; and a word written
by the host at `ic` is the word the next step executes (an inference the spec marks as its own). -/
def Obligations.StoredWordIsFetchedNext : Prop :=
  (∀ s t : State, s.halted = false → nextInstr s = .h (s.ic + 1) → step s = .next t →
    t.halted = false ∧ nextInstr t = decode s.acc) ∧
  ∀ (cfg : Config) (s t : State) (v : Word),
    act cfg (.write (trackOf s.ic).toNat (sectorOf s.ic).toNat v.toNat) s = .next t → nextInstr t = decode v

/-- R178: a Hold's value is in memory for the very next Bring, and a Bring's value is in `acc` for the very next Hold: the value
of a Bring passes through to the Hold's operand (an inference the spec marks as its own). -/
def Obligations.NoLoadUseHazard : Prop :=
  ∀ (s t u : State) (a b : Addr), s.halted = false → step s = .next t → step t = .next u →
    (nextInstr s = .b a → nextInstr t = .h b → wordAt u b = wordAt s a ∧ u.acc = wordAt s a) ∧
    (nextInstr s = .h a → nextInstr t = .b a → u.acc = s.acc)

/-- R126: running through untouched drum, from any running state with an all-zero drum whose head is at the sector of `ic`: after
`n` steps one event for each address run through, one word-time each, and nothing else (an inference the spec marks as its own;
the records' location is decision D8, log entry 8). -/
def Obligations.UntouchedDrumRun : Prop :=
  ∀ (n : Nat) (s : State), s.mem = [] → s.halted = false → s.head = sectorOf s.ic →
    stepsWith Config.default n s = .next
      { s with
        ic := s.ic + BitVec.ofNat 12 n
        head := s.head + BitVec.ofNat 6 n
        ticks := s.ticks + n
        events := s.events ++ (List.range n).map fun k => ⟨0x0, s.ic + BitVec.ofNat 12 k⟩ }

/-! ## Whole-machine rules -/

/-- R33 (a), (d), (e), (g): from every state whose drum is canonical and whose head has turned by `ticks` since it stood at `h0`,
a step gives such a state again, time never runs back and events only grow. The clauses are inferences the spec marks as its
own; the canonical form is the model's (log entry 19). -/
def Obligations.StepKeepsInvariants : Prop :=
  ∀ (h0 : Sector) (s t : State), s.mem.wf → ClockInvariant h0 s → step s = .next t →
    t.mem.wf ∧ ClockInvariant h0 t ∧ s.ticks ≤ t.ticks ∧ s.events <+: t.events

/-- The invariants hold at reset, under every choice of the parameters; the head the clock starts from is `HEAD_RESET` (decision
D5, log entry 5). -/
def Obligations.ResetMeetsInvariants : Prop :=
  State.reset.mem.wf ∧ ClockInvariant 0 State.reset ∧
  ∀ cfg : Config, (resetWith cfg).mem.wf ∧ ClockInvariant cfg.headReset (resetWith cfg)

/-- R33 over whole runs: every sequence of steps and host operations keeps the drum canonical, and every one without a reset
keeps the clock invariant, the direction of time and all reported events. -/
def Obligations.RunsKeepInvariants : Prop :=
  ∀ (cfg : Config) (xs : List Action) (s t : State), s.mem.wf → runActions cfg xs s = .next t →
    t.mem.wf ∧
    (Action.machineReset ∉ xs → Action.unitReset ∉ xs →
      (∀ h0, ClockInvariant h0 s → ClockInvariant h0 t) ∧ s.ticks ≤ t.ticks ∧ s.events <+: t.events)

/-- R33 (f), R97: `HALTED` is terminal: through any steps and host operations without a reset, `acc`, `ic`, `halted`, `ticks`,
`head` and `events` never change again, and memory changes only by direct writes. -/
def Obligations.HaltedIsTerminal : Prop :=
  ∀ (cfg : Config) (xs : List Action) (s t : State),
    s.halted = true → Action.machineReset ∉ xs → Action.unitReset ∉ xs → runActions cfg xs s = .next t →
    t = { s with mem := t.mem } ∧ ((∀ tr c v, Action.write tr c v ∉ xs) → t = s)

/-- R101: timing never feeds back into function. Two machines with one functional state, and parameters that differ in
`HEAD_RESET` alone, have one functional state after any sequence of steps and host operations (or stop alike), however their
`head` and `ticks` differ. An inference the spec marks as its own. -/
def Obligations.TimingNeverFeedsBack : Prop :=
  ∀ (cfg : Config) (h : Sector) (xs : List Action) (s t : State), FunctionalEq s t →
    FunctionalOutcomeEq (runActions cfg xs s) (runActions { cfg with headReset := h } xs t)

/-! ## Host operations and reset (50, 70) -/

/-- R151, R141: the fatal fault comes from no step and from no reset or inspection, only from a host operation given a coordinate
outside 0..63, and its record is that operation's coordinates; it ends the run, whatever was to follow. That the range failure is
a terminal fault is the spec's decision D11 (log entry 11). -/
def Obligations.FaultIsHostMisuseOnly : Prop :=
  (∀ (cfg : Config) (x : Action) (s : State) (f : Fault), act cfg x s = .fault f →
    ∃ track sector : Int, f = .drumRangeError (some track) sector ∧
      ¬ (0 ≤ track ∧ track < 64 ∧ 0 ≤ sector ∧ sector < 64) ∧
      (x = .read track sector ∨ ∃ value, x = .write track sector value)) ∧
  ∀ (cfg : Config) (xs ys : List Action) (s : State) (f : Fault),
    runActions cfg xs s = .fault f → runActions cfg (xs ++ ys) s = .fault f

/-- R136, R141: the direct word write replaces one word, costs no ticks, changes nothing else and is served in any state; out of
range it is the fatal fault. That a value wider than a word is reduced to its low 32 bits is the spec's decision D2 (log entry 3). -/
def Obligations.HostWriteContract : Prop :=
  ∀ (cfg : Config) (s : State) (track sector value : Int),
    (0 ≤ track ∧ track < 64 ∧ 0 ≤ sector ∧ sector < 64 →
      ∃ t : State, act cfg (.write track sector value) s = .next t ∧ t = { s with mem := t.mem } ∧
        ∀ a : Nat, t.mem.read a = if a = (track * 64 + sector).toNat then BitVec.ofNat 32 (value % 2 ^ 32).toNat else s.mem.read a) ∧
    (¬ (0 ≤ track ∧ track < 64 ∧ 0 ≤ sector ∧ sector < 64) →
      act cfg (.write track sector value) s = .fault (.drumRangeError (some track) sector))

/-- R135: inspection gives the current values of `acc`, `ic`, `halted`, `ticks` and the whole drum and changes nothing; the host
cannot read the head; and no host operation short of a reset or a step writes `acc`, `ic`, `halted`, `ticks` or the head. -/
def Obligations.InspectionChangesNothing : Prop :=
  (∀ (cfg : Config) (s : State) (a : Addr) (h : Sector),
    act cfg .inspect s = .next s ∧ act cfg (.read (trackOf a).toNat (sectorOf a).toNat) s = .next s ∧
    hostRead (trackOf a).toNat (sectorOf a).toNat s = .ok (wordAt s a) ∧
    (inspect s).accumulator = s.acc ∧ (inspect s).instructionCounter = s.ic ∧ (inspect s).halted = s.halted ∧
    (inspect s).totalElapsedTicks = s.ticks ∧ (inspect s).drum = s.mem ∧
    inspect { s with head := h } = inspect s ∧
    hostRead (trackOf a).toNat (sectorOf a).toNat { s with head := h } = hostRead (trackOf a).toNat (sectorOf a).toNat s) ∧
  ∀ (cfg : Config) (x : Action) (s t : State), x ≠ .step → x ≠ .machineReset → x ≠ .unitReset → act cfg x s = .next t →
    t = { s with mem := t.mem }

/-- R170, R32: a machine reset puts every item at its reset value, whatever came before, and the default parameters give
`State.reset`. The values of `head`, `ticks` and `events` are the spec's decisions D5, D6, D8 (log entries 5, 7, 8). -/
def Obligations.MachineResetValues : Prop :=
  ∀ (cfg : Config) (s : State), ∃ t : State, act cfg .machineReset s = .next t ∧
    (∀ a : Addr, wordAt t a = cfg.drumImage a) ∧ t.head = cfg.headReset ∧ t.acc = 0 ∧ t.ic = 0 ∧ t.halted = false ∧
    t.ticks = 0 ∧ t.events = [] ∧ act Config.default .machineReset s = .next State.reset ∧
    (∀ a : Addr, wordAt State.reset a = 0) ∧ State.reset.head = 0

/-- R171: the Processing-Unit reset resets the Processing Unit and keeps the Drum Store's words and head; it is the other way out
of `HALTED`. The spec's decision D10 (log entry 10). -/
def Obligations.UnitResetKeepsDrum : Prop :=
  ∀ (cfg : Config) (s : State), ∃ t : State, act cfg .unitReset s = .next t ∧ t.mem = s.mem ∧ t.head = s.head ∧ t.acc = 0 ∧
    t.ic = 0 ∧ t.halted = false ∧ t.ticks = 0 ∧ t.events = [] ∧ ClockInvariant s.head t

/-- R176: the launch state. The default reset followed by one direct write per word of a program is the machine reset with the
program as its image; where the list names an address twice the last word stands (an inference the spec marks as its own). -/
def Obligations.LaunchByWritesIsLaunchByImage : Prop :=
  ∀ program : List (Addr × Word),
    runActions Config.default
        (program.map fun p => .write (trackOf p.1).toNat (sectorOf p.1).toNat p.2.toNat) State.reset =
      .next (resetWith { drumImage := fun a => ((program.reverse.find? fun p => p.1 == a).map Prod.snd).getD 0 })
end

