-- ==== Sys2Proof/Laws/Memory.lean ====
section
/-! SUPPORT. The laws of the word array: a read after a write, and that every operation keeps the canonical form. -/

namespace Sys2Proof.Machine

@[simp] theorem Memory.read_nil (a : Nat) : Memory.read [] a = unlistedWord := rfl

theorem Memory.read_cons (k : Nat) (v : Word) (m : Memory) (a : Nat) :
    Memory.read ((k, v) :: m) a = if k = a then v else Memory.read m a := rfl

/-- An address that no cell lists reads as the unlisted word. -/
theorem Memory.read_of_not_listed (m : Memory) (a : Nat) (h : ∀ c ∈ m, c.1 ≠ a) : Memory.read m a = unlistedWord := by
  induction m with
  | nil => rfl
  | cons c m ih =>
    rw [Memory.read_cons, if_neg (h c (by simp))]
    exact ih fun d hd => h d (by simp [hd])

/-- A listed word of a canonical memory is what its address reads as. -/
theorem Memory.read_of_listed (m : Memory) (h : m.wf) (c : Cell) (hc : c ∈ m) : Memory.read m c.1 = c.2 := by
  induction m with
  | nil => simp at hc
  | cons d m ih =>
    obtain ⟨hp, hb⟩ := h
    rw [List.pairwise_cons] at hp
    rw [Memory.read_cons]
    rcases List.mem_cons.mp hc with rfl | hc
    · simp
    · rw [if_neg (hp.1 c hc).ne]
      exact ih ⟨hp.2, fun e he => hb e (by simp [he])⟩ hc

/-- Taking out the cells of one address changes no other address. -/
theorem Memory.read_filter_ne (m : Memory) (a b : Nat) (h : b ≠ a) :
    Memory.read (m.filter (fun c => c.1 != a)) b = Memory.read m b := by
  induction m with
  | nil => rfl
  | cons c m ih =>
    rw [List.filter_cons]
    split
    · rw [Memory.read_cons, Memory.read_cons, ih]
    · next hc =>
      have : c.1 = a := by simpa using hc
      rw [ih, Memory.read_cons, if_neg (by omega)]

theorem Memory.mem_insert (m : Memory) (a : Nat) (v : Word) (c : Cell) :
    c ∈ Memory.insert m a v ↔ c = (a, v) ∨ c ∈ m := by
  induction m with
  | nil => simp [Memory.insert]
  | cons d m ih =>
    unfold Memory.insert
    split <;> simp [ih]
    tauto

/-- Inserting a word at an address that is not listed gives that word there and leaves every other address alone. -/
theorem Memory.read_insert (m : Memory) (a : Nat) (v : Word) (b : Nat) (h : ∀ c ∈ m, c.1 ≠ a) :
    Memory.read (Memory.insert m a v) b = if a = b then v else Memory.read m b := by
  induction m with
  | nil => simp [Memory.insert, Memory.read_cons]
  | cons d m ih =>
    have ih := ih fun c hc => h c (by simp [hc])
    have hd := h d (by simp)
    unfold Memory.insert
    split
    · rw [Memory.read_cons]
    · rw [Memory.read_cons, ih, Memory.read_cons]
      split_ifs <;> simp_all

theorem Memory.not_listed_filter (m : Memory) (a : Nat) : ∀ c ∈ m.filter (fun c => c.1 != a), c.1 ≠ a := by
  intro c hc
  simpa using (List.mem_filter.mp hc).2

/-- Everything a write does to what a read answers: the written word at its address, the old word at every other one. -/
theorem Memory.read_write (m : Memory) (a : Nat) (v : Word) (b : Nat) :
    Memory.read (Memory.write m a v) b = if a = b then v else Memory.read m b := by
  have hn := Memory.not_listed_filter m a
  unfold Memory.write
  split
  · next hv =>
    split
    · next h => subst h; rw [Memory.read_of_not_listed _ _ hn, hv]
    · next h => exact Memory.read_filter_ne m a b (Ne.symm h)
  · rw [Memory.read_insert _ _ _ _ hn]
    split
    · rfl
    · next h => exact Memory.read_filter_ne m a b (Ne.symm h)

/-- The empty memory, which `State.reset` holds, is canonical. -/
theorem Memory.wf_nil : Memory.wf [] := ⟨List.Pairwise.nil, by simp⟩

theorem Memory.wf_filter (m : Memory) (p : Cell → Bool) (h : m.wf) : Memory.wf (m.filter p) :=
  ⟨h.1.filter p, fun c hc => h.2 c (List.mem_filter.mp hc).1⟩

theorem Memory.wf_insert (m : Memory) (a : Nat) (v : Word) (h : m.wf) (hl : ∀ c ∈ m, c.1 ≠ a)
    (ha : a < Config.drumWords) (hv : v ≠ unlistedWord) : Memory.wf (Memory.insert m a v) := by
  refine ⟨?_, fun c hc => ?_⟩
  · induction m with
    | nil => simp [Memory.insert]
    | cons d m ih =>
      obtain ⟨hp, hb⟩ := h
      have hp' := List.pairwise_cons.mp hp
      have hd := hl d (by simp)
      unfold Memory.insert
      split
      · next hlt =>
        refine List.pairwise_cons.mpr ⟨fun c hc => ?_, hp⟩
        rcases List.mem_cons.mp hc with rfl | hc
        · exact hlt
        · exact Nat.lt_trans hlt (hp'.1 c hc)
      · next hlt =>
        refine List.pairwise_cons.mpr ⟨fun c hc => ?_, ?_⟩
        · rcases (Memory.mem_insert m a v c).mp hc with rfl | hc
          · exact Nat.lt_of_le_of_ne (Nat.le_of_not_lt hlt) hd
          · exact hp'.1 c hc
        · exact ih ⟨hp'.2, fun c hc => hb c (by simp [hc])⟩ fun c hc => hl c (by simp [hc])
  · rcases (Memory.mem_insert m a v c).mp hc with rfl | hc
    · exact ⟨ha, hv⟩
    · exact h.2 c hc

/-- A write at a drum address keeps the canonical form. -/
theorem Memory.wf_write (m : Memory) (a : Nat) (v : Word) (h : m.wf) (ha : a < Config.drumWords) :
    Memory.wf (Memory.write m a v) := by
  unfold Memory.write
  split
  · exact Memory.wf_filter m _ h
  · next hv => exact Memory.wf_insert _ a v (Memory.wf_filter m _ h) (Memory.not_listed_filter m a) ha hv

/-- The cells of an image: the addresses of the drum whose word differs from the unlisted one. -/
theorem Memory.mem_ofImage (image : Addr → Word) (c : Cell) :
    c ∈ Memory.ofImage image ↔
      c.1 < Config.drumWords ∧ image (BitVec.ofNat 12 c.1) = c.2 ∧ c.2 ≠ unlistedWord := by
  unfold Memory.ofImage
  rw [List.mem_filterMap]
  constructor
  · rintro ⟨a, ha, h⟩
    split at h
    · cases h
    · cases h
      exact ⟨List.mem_range.mp ha, rfl, by assumption⟩
  · rintro ⟨ha, hv, hne⟩
    exact ⟨c.1, List.mem_range.mpr ha, by rw [if_neg (by rw [hv]; exact hne), hv]⟩

/-- The memory an image gives is canonical. -/
theorem Memory.wf_ofImage (image : Addr → Word) : (Memory.ofImage image).wf := by
  refine ⟨?_, fun c hc => ?_⟩
  · unfold Memory.ofImage
    refine List.Pairwise.filterMap _ ?_ List.pairwise_lt_range
    intro a b hab c hc d hd
    split at hc <;> simp at hc
    split at hd <;> simp at hd
    subst hc hd
    exact hab
  · obtain ⟨ha, -, hne⟩ := (Memory.mem_ofImage image c).mp hc
    exact ⟨ha, hne⟩

/-- The memory an image gives holds the image's word at every drum address. -/
theorem Memory.read_ofImage (image : Addr → Word) (a : Addr) : Memory.read (Memory.ofImage image) a.toNat = image a := by
  by_cases h : image a = unlistedWord
  · rw [Memory.read_of_not_listed, h]
    intro c hc ha
    obtain ⟨-, hv, hne⟩ := (Memory.mem_ofImage image c).mp hc
    rw [ha, BitVec.ofNat_toNat, BitVec.setWidth_eq] at hv
    exact hne (hv.symm.trans h)
  · have hlt : a.toNat < Config.drumWords := by have := a.isLt; simpa using this
    have hc : (a.toNat, image a) ∈ Memory.ofImage image :=
      (Memory.mem_ofImage image _).mpr ⟨hlt, by simp, h⟩
    exact Memory.read_of_listed _ (Memory.wf_ofImage image) (a.toNat, image a) hc

end Sys2Proof.Machine
end

