-- ==== Sys2Proof/Laws/State.lean ====
section
/-! SUPPORT. What each state update does to each of the seven fields. -/

namespace Sys2Proof.Machine

@[simp] theorem tick_mem (s : State) : (tick s).mem = s.mem := rfl
@[simp] theorem tick_head (s : State) : (tick s).head = s.head + 1 := rfl
@[simp] theorem tick_acc (s : State) : (tick s).acc = s.acc := rfl
@[simp] theorem tick_ic (s : State) : (tick s).ic = s.ic := rfl
@[simp] theorem tick_halted (s : State) : (tick s).halted = s.halted := rfl
@[simp] theorem tick_ticks (s : State) : (tick s).ticks = s.ticks := rfl
@[simp] theorem tick_events (s : State) : (tick s).events = s.events := rfl

@[simp] theorem advance_mem (n : Nat) (s : State) : (advance n s).mem = s.mem := rfl
@[simp] theorem advance_head (n : Nat) (s : State) : (advance n s).head = s.head + BitVec.ofNat 6 n := rfl
@[simp] theorem advance_acc (n : Nat) (s : State) : (advance n s).acc = s.acc := rfl
@[simp] theorem advance_ic (n : Nat) (s : State) : (advance n s).ic = s.ic := rfl
@[simp] theorem advance_halted (n : Nat) (s : State) : (advance n s).halted = s.halted := rfl
@[simp] theorem advance_ticks (n : Nat) (s : State) : (advance n s).ticks = s.ticks + n := rfl
@[simp] theorem advance_events (n : Nat) (s : State) : (advance n s).events = s.events := rfl

@[simp] theorem storeWord_mem (a : Nat) (v : Word) (s : State) : (storeWord a v s).mem = s.mem.write a v := rfl
@[simp] theorem storeWord_head (a : Nat) (v : Word) (s : State) : (storeWord a v s).head = s.head := rfl
@[simp] theorem storeWord_acc (a : Nat) (v : Word) (s : State) : (storeWord a v s).acc = s.acc := rfl
@[simp] theorem storeWord_ic (a : Nat) (v : Word) (s : State) : (storeWord a v s).ic = s.ic := rfl
@[simp] theorem storeWord_halted (a : Nat) (v : Word) (s : State) : (storeWord a v s).halted = s.halted := rfl
@[simp] theorem storeWord_ticks (a : Nat) (v : Word) (s : State) : (storeWord a v s).ticks = s.ticks := rfl
@[simp] theorem storeWord_events (a : Nat) (v : Word) (s : State) : (storeWord a v s).events = s.events := rfl

@[simp] theorem setAcc_mem (v : Word) (s : State) : (setAcc v s).mem = s.mem := rfl
@[simp] theorem setAcc_head (v : Word) (s : State) : (setAcc v s).head = s.head := rfl
@[simp] theorem setAcc_acc (v : Word) (s : State) : (setAcc v s).acc = v := rfl
@[simp] theorem setAcc_ic (v : Word) (s : State) : (setAcc v s).ic = s.ic := rfl
@[simp] theorem setAcc_halted (v : Word) (s : State) : (setAcc v s).halted = s.halted := rfl
@[simp] theorem setAcc_ticks (v : Word) (s : State) : (setAcc v s).ticks = s.ticks := rfl
@[simp] theorem setAcc_events (v : Word) (s : State) : (setAcc v s).events = s.events := rfl

@[simp] theorem setHalted_mem (s : State) : (setHalted s).mem = s.mem := rfl
@[simp] theorem setHalted_head (s : State) : (setHalted s).head = s.head := rfl
@[simp] theorem setHalted_acc (s : State) : (setHalted s).acc = s.acc := rfl
@[simp] theorem setHalted_ic (s : State) : (setHalted s).ic = s.ic := rfl
@[simp] theorem setHalted_halted (s : State) : (setHalted s).halted = true := rfl
@[simp] theorem setHalted_ticks (s : State) : (setHalted s).ticks = s.ticks := rfl
@[simp] theorem setHalted_events (s : State) : (setHalted s).events = s.events := rfl

@[simp] theorem emitUnimplemented_mem (c : Opcode) (s : State) : (emitUnimplemented c s).mem = s.mem := rfl
@[simp] theorem emitUnimplemented_head (c : Opcode) (s : State) : (emitUnimplemented c s).head = s.head := rfl
@[simp] theorem emitUnimplemented_acc (c : Opcode) (s : State) : (emitUnimplemented c s).acc = s.acc := rfl
@[simp] theorem emitUnimplemented_ic (c : Opcode) (s : State) : (emitUnimplemented c s).ic = s.ic := rfl
@[simp] theorem emitUnimplemented_halted (c : Opcode) (s : State) : (emitUnimplemented c s).halted = s.halted := rfl
@[simp] theorem emitUnimplemented_ticks (c : Opcode) (s : State) : (emitUnimplemented c s).ticks = s.ticks := rfl
@[simp] theorem emitUnimplemented_events (c : Opcode) (s : State) : (emitUnimplemented c s).events = s.events ++ [⟨c, s.ic⟩] := rfl

@[simp] theorem counterAdvance_mem (a : Addr) (s : State) : (counterAdvance a s).mem = s.mem := rfl
@[simp] theorem counterAdvance_head (a : Addr) (s : State) : (counterAdvance a s).head = s.head := rfl
@[simp] theorem counterAdvance_acc (a : Addr) (s : State) : (counterAdvance a s).acc = s.acc := rfl
@[simp] theorem counterAdvance_ic (a : Addr) (s : State) : (counterAdvance a s).ic = a + 1 := rfl
@[simp] theorem counterAdvance_halted (a : Addr) (s : State) : (counterAdvance a s).halted = s.halted := rfl
@[simp] theorem counterAdvance_ticks (a : Addr) (s : State) : (counterAdvance a s).ticks = s.ticks := rfl
@[simp] theorem counterAdvance_events (a : Addr) (s : State) : (counterAdvance a s).events = s.events := rfl

@[simp] theorem placeWord_mem (w : Word) (s : State) : (placeWord w s).mem = s.mem.write s.ic.toNat w := rfl
@[simp] theorem placeWord_head (w : Word) (s : State) : (placeWord w s).head = s.head := rfl
@[simp] theorem placeWord_acc (w : Word) (s : State) : (placeWord w s).acc = s.acc := rfl
@[simp] theorem placeWord_ic (w : Word) (s : State) : (placeWord w s).ic = s.ic := rfl
@[simp] theorem placeWord_halted (w : Word) (s : State) : (placeWord w s).halted = false := rfl
@[simp] theorem placeWord_ticks (w : Word) (s : State) : (placeWord w s).ticks = s.ticks := rfl
@[simp] theorem placeWord_events (w : Word) (s : State) : (placeWord w s).events = s.events := rfl

@[simp] theorem unitReset_mem (s : State) : (unitReset s).mem = s.mem := rfl
@[simp] theorem unitReset_head (s : State) : (unitReset s).head = s.head := rfl
@[simp] theorem unitReset_acc (s : State) : (unitReset s).acc = 0 := rfl
@[simp] theorem unitReset_ic (s : State) : (unitReset s).ic = 0 := rfl
@[simp] theorem unitReset_halted (s : State) : (unitReset s).halted = false := rfl
@[simp] theorem unitReset_ticks (s : State) : (unitReset s).ticks = 0 := rfl
@[simp] theorem unitReset_events (s : State) : (unitReset s).events = [] := rfl

@[simp] theorem resetWith_mem (cfg : Config) : (resetWith cfg).mem = Memory.ofImage cfg.drumImage := by rw [resetWith]
@[simp] theorem resetWith_head (cfg : Config) : (resetWith cfg).head = cfg.headReset := rfl
@[simp] theorem resetWith_acc (cfg : Config) : (resetWith cfg).acc = 0 := rfl
@[simp] theorem resetWith_ic (cfg : Config) : (resetWith cfg).ic = 0 := rfl
@[simp] theorem resetWith_halted (cfg : Config) : (resetWith cfg).halted = false := rfl
@[simp] theorem resetWith_ticks (cfg : Config) : (resetWith cfg).ticks = 0 := rfl
@[simp] theorem resetWith_events (cfg : Config) : (resetWith cfg).events = [] := rfl

@[simp] theorem reset_mem : State.reset.mem = [] := rfl
@[simp] theorem reset_head : State.reset.head = 0 := rfl
@[simp] theorem reset_acc : State.reset.acc = 0 := rfl
@[simp] theorem reset_ic : State.reset.ic = 0 := rfl
@[simp] theorem reset_halted : State.reset.halted = false := rfl
@[simp] theorem reset_ticks : State.reset.ticks = 0 := rfl
@[simp] theorem reset_events : State.reset.events = [] := rfl

/-- Two states are equal when their seven fields are. -/
theorem State.eq_of_fields (s t : State) (hm : s.mem = t.mem) (hh : s.head = t.head) (ha : s.acc = t.acc)
    (hi : s.ic = t.ic) (hd : s.halted = t.halted) (ht : s.ticks = t.ticks) (he : s.events = t.events) : s = t := by
  cases s; cases t; simp_all

end Sys2Proof.Machine
end

