-- ==== Sys2Proof/Laws/Ops.lean ====
section
/-! SUPPORT. For each shared operation, one lemma that says everything it can do. -/

namespace Sys2Proof.Machine

/-! ## Addresses -/

theorem coordInRange_iff (c : Int) : coordInRange c = true ↔ 0 ≤ c ∧ c < 64 := by simp [coordInRange]

theorem coordInRange_sector (c : Sector) : coordInRange c.toNat = true := by
  have := c.isLt
  rw [coordInRange_iff]
  omega

theorem trackOf_toNat (a : Addr) : (trackOf a).toNat = a.toNat / 64 := by
  have := a.isLt
  simp only [trackOf, BitVec.extractLsb'_toNat, Nat.shiftRight_eq_div_pow]
  omega

theorem sectorOf_toNat (a : Addr) : (sectorOf a).toNat = a.toNat % 64 := by
  simp [sectorOf]

/-- The coordinates of a flat address lead back to it. -/
theorem linearAddress_of_addr (a : Addr) : linearAddress (trackOf a).toNat (sectorOf a).toNat = a.toNat := by
  rw [linearAddress, trackOf_toNat, sectorOf_toNat]
  omega

/-- In-range coordinates name a word of the drum. -/
theorem linearAddress_lt (t c : Int) (ht : coordInRange t = true) (hc : coordInRange c = true) :
    linearAddress t c < Config.drumWords := by
  rw [coordInRange_iff] at ht hc
  simp only [linearAddress, Config.drumWords, Config.tracks, Config.sectorsPerTrack]
  omega

/-- Consecutive addresses have consecutive sectors, also across a track boundary and across the wrap. -/
@[simp] theorem sectorOf_succ (a : Addr) : sectorOf (a + 1#12) = sectorOf a + 1#6 := by
  apply BitVec.eq_of_toNat_eq
  rw [sectorOf_toNat, BitVec.toNat_add, BitVec.toNat_add, sectorOf_toNat]
  simp

/-! ## The Drum Store -/

/-- `Latency` on its own at a sector. -/
theorem drumLatency_of_sector (c : Sector) (s : State) : drumLatency c.toNat s = .ok (latencyFrom s.head c) := by
  simp [drumLatency, coordInRange_sector]

/-- A Drum Store read at coordinates in range. -/
theorem drumRead_ok (t c : Int) (s : State) (ht : coordInRange t = true) (hc : coordInRange c = true) :
    drumRead t c s = .ok (s.mem.read (linearAddress t c), latencyFrom s.head (BitVec.ofInt 6 c)) := by
  simp [drumRead, ht, hc]

/-- A Drum Store read at a flat address: what the Processing Unit always asks for. -/
theorem drumRead_of_addr (a : Addr) (s : State) :
    drumRead (trackOf a).toNat (sectorOf a).toNat s = .ok (wordAt s a, latencyFrom s.head (sectorOf a)) := by
  rw [drumRead_ok _ _ _ (coordInRange_sector _) (coordInRange_sector _), linearAddress_of_addr]
  simp [wordAt]

/-- A Drum Store write at coordinates in range. -/
theorem drumWrite_ok (t c : Int) (v : Word) (s : State) (ht : coordInRange t = true) (hc : coordInRange c = true) :
    drumWrite t c v s = .ok (latencyFrom s.head (BitVec.ofInt 6 c), storeWord (linearAddress t c) v s) := by
  simp [drumWrite, ht, hc]

/-- A Drum Store write at a flat address. -/
theorem drumWrite_of_addr (a : Addr) (v : Word) (s : State) :
    drumWrite (trackOf a).toNat (sectorOf a).toNat v s =
      .ok (latencyFrom s.head (sectorOf a), storeWord a.toNat v s) := by
  rw [drumWrite_ok _ _ _ _ (coordInRange_sector _) (coordInRange_sector _), linearAddress_of_addr]
  simp

/-- What a word of the drum reads as after one word was replaced. -/
theorem wordAt_storeWord (a b : Addr) (v : Word) (s : State) :
    wordAt (storeWord a.toNat v s) b = if a = b then v else wordAt s b := by
  simp only [wordAt, storeWord_mem, Memory.read_write, BitVec.toNat_inj]

theorem wordAt_of_mem_eq (s t : State) (a : Addr) (h : s.mem = t.mem) : wordAt s a = wordAt t a := by
  rw [wordAt, wordAt, h]

/-- The fetch never fails: it answers the word at the address and charges the wait and one word-time. -/
theorem fetchRead_eq (a : Addr) (s : State) :
    fetchRead a s = .ok (wordAt s a, advance (latencyFrom s.head (sectorOf a) + 1) s) := by
  rw [fetchRead, drumRead_of_addr a s]
  rfl

/-- The operand read never fails: it answers the word at the address and charges the wait. -/
theorem memRead_eq (a : Addr) (s : State) :
    memRead a s = .ok (wordAt s a, advance (latencyFrom s.head (sectorOf a)) s) := by
  rw [memRead, drumRead_of_addr a s]
  rfl

/-- The operand write never fails: it stores the word and charges the wait. -/
theorem memWrite_eq (a : Addr) (v : Word) (s : State) :
    memWrite a v s = .ok (advance (latencyFrom s.head (sectorOf a)) (storeWord a.toNat v s)) := by
  rw [memWrite, drumWrite_of_addr a v s]
  rfl

theorem readOperand_eq (a : Addr) (s : State) :
    readOperand a s = .ok (wordAt s a, advance (latencyFrom s.head (sectorOf a)) s) := memRead_eq a s

theorem writeOperand_eq (a : Addr) (v : Word) (s : State) :
    writeOperand a v s = .ok (advance (latencyFrom s.head (sectorOf a)) (storeWord a.toNat v s)) := memWrite_eq a v s

/-- The wait brings the head to the target sector. -/
theorem head_add_latency (h t : Sector) : h + BitVec.ofNat 6 (latencyFrom h t) = t := by
  have := h.isLt
  have := t.isLt
  apply BitVec.eq_of_toNat_eq
  rw [BitVec.toNat_add, BitVec.toNat_ofNat]
  unfold latencyFrom
  split <;> simp <;> omega

/-! ## The step -/

/-- The step of a running machine: the fetch, charged, and then the fetched word. -/
theorem stepWith_running (cfg : Config) (s : State) (h : s.halted = false) :
    stepWith cfg s =
      runWord cfg s.ic (wordAt s s.ic) (advance (latencyFrom s.head (sectorOf s.ic) + 1) s) := by
  simp [stepWith, h, fetchRead_eq, orFault]

/-- Without the strict setting every word runs as the instruction it decodes to. -/
theorem runWord_of_not_strict (cfg : Config) (a : Addr) (w : Word) (s : State) (h : cfg.operandStrict = false) :
    runWord cfg a w s = finishStep a (exec (decode w) s) := by
  simp [runWord, decodeWith, h]

/-- The step of a halted machine. -/
theorem stepWith_halted (cfg : Config) (s : State) (h : s.halted = true) : stepWith cfg s = .next s := by
  simp [stepWith, h]

/-- A counter advance is all that `finishStep` adds, and only to a next state. -/
theorem finishStep_next (a : Addr) (o : Host.Outcome State Fault Refusal) (t : State) (h : finishStep a o = .next t) :
    ∃ u, o = .next u ∧ t = counterAdvance a u := by
  cases o with
  | next u => exact ⟨u, rfl, by simpa [finishStep] using h.symm⟩
  | fault f => cases h
  | refused r => cases h

/-! ## The host -/

/-- A direct word write either stores one word or faults. -/
theorem hostWrite_cases (t c v : Int) (s : State) :
    (coordInRange t = true ∧ coordInRange c = true ∧
        hostWrite t c v s = .ok (storeWord (linearAddress t c) (BitVec.ofInt 32 v) s)) ∨
      hostWrite t c v s = .error (rangeError t c) := by
  unfold hostWrite
  split
  · next h => simp_all
  · exact .inr rfl

/-- A drum read by the host either answers the word or faults. -/
theorem hostRead_cases (t c : Int) (s : State) :
    hostRead t c s = .ok (s.mem.read (linearAddress t c)) ∨ hostRead t c s = .error (rangeError t c) := by
  unfold hostRead
  split
  · exact .inl rfl
  · exact .inr rfl

/-- With the default parameters a machine reset gives `State.reset`. -/
theorem resetWith_default : resetWith Config.default = State.reset := by
  have h : Memory.ofImage Config.default.drumImage = [] := by
    rw [List.eq_nil_iff_forall_not_mem]
    intro c hc
    obtain ⟨-, hv, hne⟩ := (Memory.mem_ofImage _ c).mp hc
    exact hne hv.symm
  apply State.eq_of_fields <;> simp [h]
  rfl

end Sys2Proof.Machine
end

