-- ==== Sys2Proof/Laws/PerInstr.lean ====
section
/-! SUPPORT. Per instruction: its two fields select it, it is well formed, and its canonical word is `Encode` of those fields
(spec/30_encoding.md R75, R78, R79). -/

namespace Sys2Proof.Laws.Fields

/-- The fields of an instruction are in the domain of `Encode`, select that instruction and no other, and encode to its word. -/
def Statement (i : Instr) : Prop :=
  i.wellFormed = true ∧ instrOfFields i.opcode i.operand = i ∧
    encodeNumbers i.opcode.toNat i.operand.toNat = some (encode i)

theorem wellFormed_of_type (i : Instr) : i.wellFormed = true := by
  have := i.operand.isLt
  simpa [Instr.wellFormed] using this

theorem encodeNumbers_of_fields (i : Instr) : encodeNumbers i.opcode.toNat i.operand.toNat = some (encode i) := by
  have h : fieldsWellFormed i.opcode.toNat i.operand.toNat = true := by
    have := i.operand.isLt
    have := i.opcode.isLt
    simp [fieldsWellFormed]
    omega
  simp [encodeNumbers, h, encode]

/-- What is left to say of one constructor: its fields select it. -/
theorem statement_of_fields (i : Instr) (h : instrOfFields i.opcode i.operand = i) : Statement i :=
  ⟨wellFormed_of_type i, h, encodeNumbers_of_fields i⟩

theorem u0 (operand : Addr) : Statement (.u0 operand) := statement_of_fields _ rfl
theorem b (operand : Addr) : Statement (.b operand) := statement_of_fields _ rfl
theorem u2 (operand : Addr) : Statement (.u2 operand) := statement_of_fields _ rfl
theorem u3 (operand : Addr) : Statement (.u3 operand) := statement_of_fields _ rfl
theorem u4 (operand : Addr) : Statement (.u4 operand) := statement_of_fields _ rfl
theorem u5 (operand : Addr) : Statement (.u5 operand) := statement_of_fields _ rfl
theorem u6 (operand : Addr) : Statement (.u6 operand) := statement_of_fields _ rfl
theorem u7 (operand : Addr) : Statement (.u7 operand) := statement_of_fields _ rfl
theorem u8 (operand : Addr) : Statement (.u8 operand) := statement_of_fields _ rfl
theorem u9 (operand : Addr) : Statement (.u9 operand) := statement_of_fields _ rfl
theorem uA (operand : Addr) : Statement (.uA operand) := statement_of_fields _ rfl
theorem uB (operand : Addr) : Statement (.uB operand) := statement_of_fields _ rfl
theorem uC (operand : Addr) : Statement (.uC operand) := statement_of_fields _ rfl
theorem uD (operand : Addr) : Statement (.uD operand) := statement_of_fields _ rfl
theorem h (operand : Addr) : Statement (.h operand) := statement_of_fields _ rfl
theorem z (operand : Addr) : Statement (.z operand) := statement_of_fields _ rfl

end Sys2Proof.Laws.Fields
end

