-- ==== Sys2Proof/Tests/Slice0.lean ====
section
/-! SUPPORT. The model's own tests: ill-formed terms refused, words written out from the encoding, the vectors of
spec/95_test_vectors.md one step at a time, and for each statement with hypotheses a state and operands that meet them. -/

namespace Sys2Proof.Tests

open Sys2Proof.Machine

/-- A running machine with the given drum, head, counter and accumulator; no time has passed and no event was reported. -/
def machineAt (mem : Memory) (head : Sector) (ic : Addr) (acc : Word) : State :=
  { State.reset with mem := mem, head := head, ic := ic, acc := acc }

/-- The fields a one-step vector of the spec lists, in the order `acc`, `ic`, `halted`, `ticks`, `head`. -/
def registers (o : Host.Outcome State Fault Refusal) : Option (Word × Addr × Bool × Nat × Sector) :=
  (nextState o).map fun s => (s.acc, s.ic, s.halted, s.ticks, s.head)

/-- The drum a step leaves. -/
def drum (o : Host.Outcome State Fault Refusal) : Option Memory := (nextState o).map State.mem

/-- The events a step leaves. -/
def reports (o : Host.Outcome State Fault Refusal) : Option (List Event) := (nextState o).map State.events

/-! ## Well-formedness: an ill-formed pair for each check -/

theorem test_command_out_of_range : fieldsWellFormed 16 0 = false ∧ fieldsWellFormed 15 0 = true := by decide

theorem test_operand_out_of_range : fieldsWellFormed 0 4096 = false ∧ fieldsWellFormed 0 4095 = true := by decide

theorem test_encode_refuses_ill_formed : encodeNumbers 16 0 = none ∧ encodeNumbers 1 4096 = none := by decide

theorem test_memory_not_canonical :
    ¬ Memory.wf [(4, 1), (3, 1)] ∧ ¬ Memory.wf [(3, 1), (3, 2)] ∧ ¬ Memory.wf [(4096, 1)] ∧ ¬ Memory.wf [(3, 0)] := by decide

/-! ## Decoding: words written out bit by bit from 30_encoding.md R70 -/

theorem test_decode_bring : decode 0b000000000000_0001_00_000011_000101_00 = .b 197 := by decide

theorem test_decode_hold : decode 0b000000000000_1110_00_000001_000000_00 = .h 64 := by decide

theorem test_decode_stop : decode 0b000000000000_1111_00_000000_000000_00 = .z 0 := by decide

/-- Ignored bits set, in each of the three ignored places. -/
theorem test_decode_ignored_bits :
    decode 0b111111111111_0001_11_111111_111111_11 = .b 4095 ∧ decode 0b101010111100_0101_00_000000_000000_11 = .u5 0 := by decide

theorem test_decode_reserved :
    [0x0, 0x2, 0x3, 0x4, 0x5, 0x6, 0x7, 0x8, 0x9, 0xA, 0xB, 0xC, 0xD].map (fun c : Word => decode (c <<< 16)) =
      [.u0 0, .u2 0, .u3 0, .u4 0, .u5 0, .u6 0, .u7 0, .u8 0, .u9 0, .uA 0, .uB 0, .uC 0, .uD 0] := by decide

/-- 95_test_vectors.md V5, `Encode`. -/
theorem test_encode_vectors :
    encode (.b 197) = 0x00010314 ∧ encode (.h 64) = 0x000E0100 ∧ encode (.z 0) = 0x000F0000 ∧ encode (.b 4095) = 0x00013FFC := by
  decide

theorem test_table_word_short : decodeTableWord 24 0x0E0100 = some (.h 64) ∧ decodeTableWord 32 0xFFFFFFFF = some (.z 4095) := by
  decide

/-- 95_test_vectors.md V5: the word with bits 15:14 set is refused when `OPERAND_STRICT`. -/
theorem test_strict_refuses : decodeWith true 0x0001C314 = .error (.operandBitsSet 0x0001C314) := by rfl

/-! ## The Drum Store: S1, V2, V3, V4 -/

theorem test_latency_vectors :
    [latencyFrom 0 63, latencyFrom 63 0, latencyFrom 1 0, latencyFrom 10 2, latencyFrom 2 10, latencyFrom 63 62] =
      [63, 1, 63, 56, 8, 63] := by decide

theorem test_advance_vectors :
    (advance 59 (machineAt [] 5 0 0)).head = 0 ∧ (advance 64 (machineAt [] 5 0 0)).head = 5 ∧
    (advance 127 (machineAt [] 60 0 0)).head = 59 ∧ (advance 127 (machineAt [] 60 0 0)).ticks = 127 := by decide

theorem test_drum_read_vectors :
    drumRead 3 5 (machineAt [(197, 0xABCD)] 10 0 0) = .ok (0xABCD, 59) ∧
    drumRead 64 0 (machineAt [] 10 0 0) = .error (.drumRangeError (some 64) 0) ∧
    drumRead (-1) 0 (machineAt [] 10 0 0) = .error (.drumRangeError (some (-1)) 0) := ⟨rfl, rfl, rfl⟩

theorem test_drum_write_vector :
    drumWrite 3 5 0xFFFFFFFF (machineAt [(197, 0xABCD)] 10 0 0) = .ok (59, machineAt [(197, 0xFFFFFFFF)] 10 0 0) := rfl

theorem test_write_of_zero_is_unlisted : Memory.write [(3, 1), (5, 2)] 3 0 = [(5, 2)] := by decide

/-! ## One step of each instruction: V6 to V9 -/

/-- V6: `ic` wraps from 4095 to 0 and sector 0 is the next sector. -/
theorem test_bring_wraps :
    registers (step (machineAt [(0, 7), (4095, 0x00010000)] 63 4095 0x11111111)) = some (7, 0, false, 1, 0) := by decide

/-- V6: the instruction reads its own word, at the dearest operand place. -/
theorem test_bring_own_word : registers (step (machineAt [(0, 0x00010000)] 0 0 0x11111111)) = some (0x00010000, 1, false, 64, 0) := by
  decide

/-- V7: the dearest step, 127 word-times. -/
theorem test_hold_dearest :
    registers (step (machineAt [(1, 0x000E0104)] 2 1 0xCAFEF00D)) = some (0xCAFEF00D, 2, false, 127, 1) ∧
    drum (step (machineAt [(1, 0x000E0104)] 2 1 0xCAFEF00D)) = some [(1, 0x000E0104), (65, 0xCAFEF00D)] := by decide

/-- V7: the instruction overwrites its own word. -/
theorem test_hold_own_word :
    registers (step (machineAt [(0, 0x000E0000)] 0 0 0xCAFEF00D)) = some (0xCAFEF00D, 1, false, 64, 0) ∧
    drum (step (machineAt [(0, 0x000E0000)] 0 0 0xCAFEF00D)) = some [(0, 0xCAFEF00D)] := by decide

/-- V8: the counter wraps on the step of a Stop in the last word. -/
theorem test_stop_wraps : registers (step (machineAt [(4095, 0x000F0000)] 63 4095 9)) = some (9, 0, true, 1, 0) := by decide

/-- V8: a fetch that waits 59. -/
theorem test_stop_waits : registers (step (machineAt [(5, 0x000F0000)] 10 5 0)) = some (0, 6, true, 60, 6) := by decide

/-- V9: the thirteen reserved opcodes, each in the first word of a fresh drum. -/
theorem test_reserved_events :
    [0x0, 0x2, 0x3, 0x4, 0x5, 0x6, 0x7, 0x8, 0x9, 0xA, 0xB, 0xC, 0xD].all (fun c : Opcode =>
      registers (step (State.reset.withFetchWord 32 (c.toNat * 65536))) == some (0, 1, false, 1, 1) &&
      reports (step (State.reset.withFetchWord 32 (c.toNat * 65536))) == some [⟨c, 0⟩]) = true := by decide

/-- V9: a reserved opcode at 4095 whose operand field is 4095 makes no access there. -/
theorem test_reserved_wraps :
    registers (step (machineAt [(4095, 0x000D3FFC)] 63 4095 0)) = some (0, 0, false, 1, 0) ∧
    reports (step (machineAt [(4095, 0x000D3FFC)] 63 4095 0)) = some [⟨0xD, 4095⟩] := by decide

/-! ## The host: V10 -/

theorem test_host_write_keeps_low_bits :
    drum (act Config.default (.write 0 0 0x100000005) State.reset) = some [(0, 5)] ∧
    act Config.default (.write 64 0 1) State.reset = .fault (.drumRangeError (some 64) 0) := ⟨by decide, rfl⟩

/-! ## Witnesses: states and operands that meet the hypotheses of each statement -/

theorem witness_OpcodeMapRows :
    (List.range 16).all (fun c => bitField (BitVec.ofNat 32 (c * 65536)) 19 16 == c) = true ∧
    bitField 0xFFFFFFFF 19 16 = 0xF ∧ operandField 0xFFFFFFFF = 4095 := by decide

theorem witness_StrictRefusesBits15And14 :
    (machineAt [(0, 0x0001C314)] 0 0 0).halted = false ∧
    ({ operandStrict := true } : Config).operandStrict = true ∧ bitField (wordAt (machineAt [(0, 0x0001C314)] 0 0 0) 0) 15 14 = 3 ∧
    bitField (wordAt (machineAt [(0, 0x00014000)] 0 0 0) 0) 15 14 = 1 ∧
    bitField (wordAt (machineAt [(0, 0xFFFF3FFF)] 0 0 0) 0) 15 14 = 0 ∧ Config.default.operandStrict = false := by decide

theorem witness_TrackSelectionIsFree :
    (machineAt [] 9 0 0).head = (machineAt [(1, 1)] 9 7 8).head ∧ sectorOf 5 = sectorOf 4037 ∧ trackOf 5 ≠ trackOf 4037 := by decide

/-- Both sides of the range checks of `DrumReadContract`, `DrumWriteContract`, `RangeCheckIsExact`, `HostWriteContract`. -/
theorem witness_DrumReadContract :
    ((0 : Int) ≤ 0 ∧ (0 : Int) < 64 ∧ (0 : Int) ≤ 63 ∧ (63 : Int) < 64) ∧ ¬ ((0 : Int) ≤ 64 ∧ (64 : Int) < 64) ∧
    ¬ ((0 : Int) ≤ -1 ∧ (-1 : Int) < 64) := by decide

theorem witness_DrumWriteContract :
    drumWrite 63 63 1 State.reset = .ok (63, machineAt [(4095, 1)] 0 0 0) ∧
    drumWrite 0 64 1 State.reset = .error (.drumRangeError (some 0) 64) := ⟨rfl, rfl⟩

theorem witness_RangeCheckIsExact :
    drumRead 0 (-1) State.reset = .error (.drumRangeError (some 0) (-1)) ∧
    drumWrite 64 0 1 State.reset = .error (.drumRangeError (some 64) 0) ∧
    drumLatency 64 State.reset = .error (.drumRangeError none 64) := ⟨rfl, rfl, rfl⟩

theorem witness_LatencyLaws : (machineAt [] 0 0 0).head = 0 ∧ (machineAt [] 63 0 0).head = 63 := by decide

theorem witness_LatencyFormula : latencyFrom 1 0 = 63 ∧ 62 < latencyFrom 1 0 := by decide

theorem witness_CanonicalDrumIsUnique :
    let m := Memory.write (Memory.write [] 5 1) 3 2
    let n := Memory.write (Memory.write [] 3 2) 5 1
    m.wf ∧ n.wf ∧ ∀ a : Nat, a < 4096 → m.read a = n.read a := by
  refine ⟨by decide, by decide, fun a _ => ?_⟩
  have h : Memory.write (Memory.write [] 5 1) 3 2 = Memory.write (Memory.write [] 3 2) 5 1 := by decide
  rw [h]

/-- One instruction of each shape completes, with each disjunct of the frame's changes taken by some. -/
theorem witness_ExecuteFrame :
    (∃ t, exec (.b 0) (machineAt [(0, 7)] 0 0 0) = .next t ∧ t.acc = 7) ∧
    (∃ t, exec (.h 4095) (machineAt [] 0 0 5) = .next t ∧ t.mem.read 4095 = 5) ∧
    (∃ t, exec (.z 0) State.reset = .next t ∧ t.halted = true) ∧
    ∃ t, exec (.uD 4095) State.reset = .next t ∧ t.events = [⟨0xD, 0⟩] :=
  ⟨⟨_, rfl, rfl⟩, ⟨_, rfl, rfl⟩, ⟨_, rfl, rfl⟩, ⟨_, rfl, rfl⟩⟩

theorem witness_HaltedGate : { State.reset with halted := true }.halted = true := by decide

theorem witness_StepRunsDecodedInstruction :
    (machineAt [(4095, 0x000E3FFC)] 0 4095 0).halted = false ∧
    decode ((machineAt [(4095, 0x000E3FFC)] 0 4095 0).mem.read (4095 : Addr).toNat) = .h 4095 := by decide

theorem witness_BringStep :
    let s := machineAt [(4095, 0xFFF1FFFF)] 0 4095 0
    s.halted = false ∧ bitField (wordAt s s.ic) 19 16 = 0x1 ∧ operandField (wordAt s s.ic) = 4095 := by decide

theorem witness_HoldStep :
    let s := machineAt [(0, 0x7FFEFFFC)] 0 0 5
    s.halted = false ∧ bitField (wordAt s s.ic) 19 16 = 0xE ∧ operandField (wordAt s s.ic) = 4095 := by decide

theorem witness_StopStep :
    let s := machineAt [(0, 0xFFFFFFFF)] 0 0 0
    s.halted = false ∧ bitField (wordAt s s.ic) 19 16 = 0xF := by decide

theorem witness_ReservedStep :
    let s := machineAt [(0, 0x000D0000)] 0 0 0
    s.halted = false ∧ bitField (wordAt s s.ic) 19 16 = (0xD : Opcode).toNat ∧ (0xD : Opcode) ≠ 0x1 ∧ (0xD : Opcode) ≠ 0xE ∧
    (0xD : Opcode) ≠ 0xF ∧ bitField (wordAt State.reset 0) 19 16 = (0x0 : Opcode).toNat := by decide

/-- Each premise of the frame of a step is met: a halted step, and each of the changes it lists. -/
theorem witness_StepFrame :
    (∃ t, step { State.reset with halted := true } = .next t) ∧
    (∃ t, step (machineAt [(0, 0x00010000)] 0 0 0) = .next t ∧ t.acc ≠ 0) ∧
    (∃ t, step (machineAt [(0, 0x000E3FFC)] 0 0 5) = .next t ∧ t.mem.read 4095 ≠ (machineAt [(0, 0x000E3FFC)] 0 0 5).mem.read 4095) ∧
    (∃ t, step (machineAt [(0, 0x000F0000)] 0 0 0) = .next t ∧ t.halted ≠ false) ∧
    ∃ t, step State.reset = .next t ∧ t.events ≠ [] :=
  ⟨⟨_, rfl⟩, ⟨_, rfl, by decide⟩, ⟨_, rfl, by decide⟩, ⟨_, rfl, by decide⟩, ⟨_, rfl, by decide⟩⟩

theorem witness_StepNeverFaults : Config.default.operandStrict = false := rfl

theorem witness_StepCostIsTable :
    (∃ t, step (machineAt [(1, 0x000E0104)] 2 1 5) = .next t) ∧ stepCost (machineAt [(1, 0x000E0104)] 2 1 5) = 127 ∧
    stepCost State.reset = 1 ∧ (nextInstr State.reset).drumOperand = none ∧ stepCost { State.reset with halted := true } = 0 :=
  ⟨⟨_, rfl⟩, by decide, by decide, by decide, by decide⟩

theorem witness_DearestStep :
    let s := machineAt [(1, 0x000E0104)] 2 1 5
    s.halted = false ∧ (∃ t, step s = .next t ∧ t.ticks = s.ticks + 127) ∧ fetchWait s = 63 ∧ nextInstr s = .h 65 ∧
    sectorOf 65 = sectorOf s.ic := ⟨rfl, ⟨_, rfl, by decide⟩, by decide, by decide, by decide⟩

theorem witness_HeadAfterStep :
    (∃ t, step (machineAt [(0, 0x00013FFC)] 0 0 0) = .next t ∧ t.head = 63) ∧
    (∃ t, step (machineAt [(0, 0x000E3FFC)] 0 0 0) = .next t ∧ t.head = 63) ∧
    (∃ t, step (machineAt [] 9 63 0) = .next t ∧ t.head = 0) ∧
    ∃ t, step { machineAt [] 9 63 0 with halted := true } = .next t ∧ t.head = 9 :=
  ⟨⟨_, rfl, rfl⟩, ⟨_, rfl, rfl⟩, ⟨_, rfl, rfl⟩, ⟨_, rfl, rfl⟩⟩

theorem witness_HeadInfluencesOneStepOnly :
    (machineAt [(0, 0x00010314)] 6 0 0).halted = false ∧ ∃ t, step (machineAt [(0, 0x00010314)] 6 0 0) = .next t := ⟨rfl, _, rfl⟩

theorem witness_OnlyStopHalts :
    (∃ t, step (machineAt [(0, 0x000F0000)] 0 0 0) = .next t ∧ t.halted = true) ∧
    (∃ t, act Config.default (.write 0 0 1) { State.reset with halted := true } = .next t ∧ t.halted = true) ∧
    (∃ t, stepsWith Config.default 1 (machineAt [] 0 0 0) = .next t ∧
      ∀ u ∈ stepTrace Config.default 1 (machineAt [] 0 0 0), bitField (wordAt u u.ic) 19 16 ≠ 0xF) ∧
    ∃ t, stepsWith Config.default 2 State.reset = .next t :=
  ⟨⟨_, rfl, rfl⟩, ⟨_, rfl, rfl⟩, ⟨_, rfl, by decide⟩, ⟨_, rfl⟩⟩

theorem witness_EndedRunStandsPastItsStop :
    (machineAt [(4095, 0x000F0000)] 0 4095 0).halted = false ∧
    ∃ t, step (machineAt [(4095, 0x000F0000)] 0 4095 0) = .next t ∧ Ended t ∧ t.ic = 0 := ⟨rfl, _, rfl, rfl, rfl⟩

/-- One step with an event and one without. -/
theorem witness_EventsRecordReservedOpcodes :
    (∃ t, step State.reset = .next t ∧ t.events.length = 1) ∧
    ∃ t, step (machineAt [(0, 0x00010000)] 0 0 0) = .next t ∧ t.events = [] := ⟨⟨_, rfl, rfl⟩, ⟨_, rfl, rfl⟩⟩

theorem witness_CounterIsSequential :
    (∃ t, stepsWith Config.default 2 (machineAt [] 0 4095 0) = .next t ∧ t.halted = false ∧ t.ic = 1) ∧
    ∃ t, stepsWith Config.default 1 (machineAt [(0, 0x000F0000)] 0 0 0) = .next t ∧ t.halted = true :=
  ⟨⟨_, rfl, rfl, rfl⟩, ⟨_, rfl, rfl⟩⟩

theorem witness_ElapsedTimeIdentity :
    ∃ t, stepsWith Config.default 2 (machineAt [(0, 0x00010100)] 0 0 0) = .next t ∧ t.ticks = 66 := ⟨_, rfl, by decide⟩

theorem witness_StraightLineCosts :
    State.reset.halted = false ∧ (∃ t, step State.reset = .next t) ∧ (nextInstr State.reset).drumOperand = none ∧
    (∃ t, step (machineAt [(0, 0x00010004)] 0 0 0) = .next t) ∧ nextInstr (machineAt [(0, 0x00010004)] 0 0 0) = .b 1 ∧
    (∃ t, step (machineAt [(0, 0x000E0100)] 0 0 0) = .next t) ∧ nextInstr (machineAt [(0, 0x000E0100)] 0 0 0) = .h 64 :=
  ⟨rfl, ⟨_, rfl⟩, by decide, ⟨_, rfl⟩, by decide, ⟨_, rfl⟩, by decide⟩

/-- One badly placed step, whose revolution is still to be paid in full. -/
theorem witness_PlacementAndTime :
    let s := machineAt [(0, 0x00010008)] 0 0 0
    (∃ t, stepsWith Config.default 1 s = .next t ∧ t.ticks = 2 ∧ fetchWait t = 63) ∧
    (∀ u ∈ stepTrace Config.default 1 s, u.halted = false) ∧ (stepTrace Config.default 1 s).countP badlyPlaced = 1 :=
  ⟨⟨_, rfl, by decide, by decide⟩, by decide, by decide⟩

theorem witness_StoredWordIsFetchedNext :
    nextInstr (machineAt [(4095, 0x000E0000)] 0 4095 5) = .h (4095 + 1) ∧
    (∃ t, step (machineAt [(4095, 0x000E0000)] 0 4095 5) = .next t) ∧
    ∃ t, act Config.default (.write (trackOf 4095).toNat (sectorOf 4095).toNat (0x000F0000 : Word).toNat) (machineAt [] 0 4095 5) = .next t :=
  ⟨by decide, ⟨_, rfl⟩, ⟨_, rfl⟩⟩

theorem witness_NoLoadUseHazard :
    let s := machineAt [(0, 0x00010314), (1, 0x000E0100), (197, 0xABCD)] 0 0 0
    let s' := machineAt [(0, 0x000E0100), (1, 0x00010100)] 0 0 5
    (nextInstr s = .b 197 ∧ ∃ t u, step s = .next t ∧ nextInstr t = .h 64 ∧ step t = .next u) ∧
    (nextInstr s' = .h 64 ∧ ∃ t u, step s' = .next t ∧ nextInstr t = .b 64 ∧ step t = .next u) :=
  ⟨⟨by decide, _, _, rfl, by decide, rfl⟩, ⟨by decide, _, _, rfl, by decide, rfl⟩⟩

theorem witness_UntouchedDrumRun :
    let s := machineAt [] 63 4095 5
    s.mem = [] ∧ s.halted = false ∧ s.head = sectorOf s.ic := by decide

theorem witness_StepKeepsInvariants :
    let s := { machineAt [(1, 0x000E0104)] 2 1 5 with ticks := 66 }
    s.mem.wf ∧ ClockInvariant 0 s ∧ ∃ t, step s = .next t := ⟨by decide, by decide, _, rfl⟩

/-- A run with no reset in it, and one with both. -/
theorem witness_RunsKeepInvariants :
    State.reset.mem.wf ∧ ClockInvariant 0 State.reset ∧
    (∃ t, runActions Config.default [.write 63 63 7, .step, .inspect] State.reset = .next t) ∧
    Action.machineReset ∉ [Action.write 63 63 7, .step, .inspect] ∧ Action.unitReset ∉ [Action.write 63 63 7, .step, .inspect] ∧
    ∃ t, runActions Config.default [.step, .unitReset, .machineReset] State.reset = .next t :=
  ⟨by decide, by decide, ⟨_, rfl⟩, by decide, by decide, ⟨_, rfl⟩⟩

theorem witness_HaltedIsTerminal :
    let s := { State.reset with halted := true }
    s.halted = true ∧ (∃ t, runActions Config.default [.step, .write 0 0 7, .step] s = .next t ∧ t.mem = [(0, 7)]) ∧
    (∃ t, runActions Config.default [.step, .read 63 63] s = .next t) ∧ ∀ tr c v, Action.write tr c v ∉ [Action.step, .read 63 63] :=
  ⟨rfl, ⟨_, rfl, rfl⟩, ⟨_, rfl⟩, by simp⟩

theorem witness_TimingNeverFeedsBack : FunctionalEq (machineAt [(0, 0x00010000)] 0 0 0) { machineAt [(0, 0x00010000)] 63 0 0 with ticks := 9 } := by
  decide

theorem witness_FaultIsHostMisuseOnly :
    act Config.default (.read 0 64) State.reset = .fault (.drumRangeError (some 0) 64) ∧
    runActions Config.default [.step, .write (-1) 0 5] State.reset = .fault (.drumRangeError (some (-1)) 0) := ⟨rfl, rfl⟩

theorem witness_HostWriteContract :
    (∃ t, act Config.default (.write 63 63 (-1)) State.reset = .next t ∧ t.mem = [(4095, 0xFFFFFFFF)]) ∧
    act Config.default (.write 0 64 5) State.reset = .fault (.drumRangeError (some 0) 64) := ⟨⟨_, rfl, by decide⟩, rfl⟩

theorem witness_InspectionChangesNothing :
    (Action.write 0 0 1 ≠ .step ∧ Action.write 0 0 1 ≠ .machineReset ∧ Action.write 0 0 1 ≠ .unitReset) ∧
    ∃ t, act Config.default (.write 0 0 1) State.reset = .next t := ⟨by decide, _, rfl⟩

/-- Where a program comes to run (log entry 17): the placed word runs as the first instruction after reset. -/
theorem test_placed_word_runs : registers (step (State.reset.withFetchWord 24 0x0F0000)) = some (0, 1, true, 1, 1) := by decide

end Sys2Proof.Tests
end

section
/-! PROOFS. The Drum Store (spec/20_memory.md): what the range check, the latency, the address maps and the timed operand accesses
do, and from that the statements of the family. -/

namespace Sys2Proof.Machine

/-! ## The range check (R64) -/

/-- Both coordinates pass the range check exactly when both are in 0..63. -/
theorem coordInRange_both_iff (track sector : Int) :
    (coordInRange track = true ∧ coordInRange sector = true) ↔ 0 ≤ track ∧ track < 64 ∧ 0 ≤ sector ∧ sector < 64 := by
  rw [coordInRange_iff, coordInRange_iff, and_assoc]

theorem drumLatency_ok (sector : Int) (s : State) (h : coordInRange sector = true) :
    drumLatency sector s = .ok (latencyFrom s.head (BitVec.ofInt 6 sector)) := if_pos h

theorem drumLatency_error (sector : Int) (s : State) (h : ¬ coordInRange sector = true) :
    drumLatency sector s = .error (.drumRangeError none sector) := if_neg h

theorem drumRead_error (track sector : Int) (s : State) (h : ¬ (coordInRange track = true ∧ coordInRange sector = true)) :
    drumRead track sector s = .error (.drumRangeError (some track) sector) :=
  if_neg fun hb => h ((Bool.and_eq_true _ _).mp hb)

theorem drumWrite_error (track sector : Int) (v : Word) (s : State)
    (h : ¬ (coordInRange track = true ∧ coordInRange sector = true)) :
    drumWrite track sector v s = .error (.drumRangeError (some track) sector) :=
  if_neg fun hb => h ((Bool.and_eq_true _ _).mp hb)

/-- Settles O10: the read at coordinates in range and the read out of range are the two branches of the range check. -/
theorem drumReadContract : Obligations.DrumReadContract := by
  intro s track sector
  rw [← coordInRange_both_iff]
  refine ⟨fun ⟨ht, hc⟩ => ?_, drumRead_error track sector s⟩
  exact ⟨_, drumRead_ok track sector s ht hc, drumLatency_ok sector s hc⟩

/-- A read answers exactly in range, and its only failure is the range error. -/
theorem drumRead_range_exact (track sector : Int) (s : State) :
    ((∃ r, drumRead track sector s = .ok r) ↔ coordInRange track = true ∧ coordInRange sector = true) ∧
      ∀ f, drumRead track sector s = .error f → f = .drumRangeError (some track) sector := by
  by_cases h : coordInRange track = true ∧ coordInRange sector = true
  · simp [drumRead_ok, h]
  · simp [drumRead_error, h]

/-- A write answers exactly in range, and its only failure is the range error. -/
theorem drumWrite_range_exact (track sector : Int) (v : Word) (s : State) :
    ((∃ r, drumWrite track sector v s = .ok r) ↔ coordInRange track = true ∧ coordInRange sector = true) ∧
      ∀ f, drumWrite track sector v s = .error f → f = .drumRangeError (some track) sector := by
  by_cases h : coordInRange track = true ∧ coordInRange sector = true
  · simp [drumWrite_ok, h]
  · simp [drumWrite_error, h]

/-- `Latency` answers exactly in range, and its only failure is the range error without a track. -/
theorem drumLatency_range_exact (sector : Int) (s : State) :
    ((∃ n, drumLatency sector s = .ok n) ↔ coordInRange sector = true) ∧
      ∀ f, drumLatency sector s = .error f → f = .drumRangeError none sector := by
  by_cases h : coordInRange sector = true
  · simp [drumLatency_ok, h]
  · simp [drumLatency_error, h]

/-- Settles O12: each operation answers in one branch of its range check and fails in the other. -/
theorem rangeCheckIsExact : Obligations.RangeCheckIsExact := by
  intro s track sector v
  rw [← coordInRange_both_iff, ← coordInRange_iff]
  obtain ⟨hread, hreadError⟩ := drumRead_range_exact track sector s
  obtain ⟨hwrite, hwriteError⟩ := drumWrite_range_exact track sector v s
  obtain ⟨hlatency, hlatencyError⟩ := drumLatency_range_exact sector s
  exact ⟨hread, hwrite, hlatency, fun f =>
    ⟨fun h => h.elim (hreadError f) (hwriteError f), fun h => ⟨none, hlatencyError f h⟩⟩⟩

/-! ## The latency (R42, R46) -/

theorem latencyFrom_eq_emod (head target : Sector) :
    (latencyFrom head target : Int) = ((target.toNat : Int) - head.toNat) % 64 := by
  have := head.isLt
  have := target.isLt
  unfold latencyFrom Config.sectorsPerTrack
  split <;> omega

theorem latencyFrom_le (head target : Sector) : latencyFrom head target ≤ 63 := by
  have := latencyFrom_eq_emod head target
  omega

theorem latencyFrom_eq_zero_iff (head target : Sector) : latencyFrom head target = 0 ↔ target = head := by
  have := latencyFrom_eq_emod head target
  rw [← BitVec.toNat_inj]
  omega

/-- The net effect of `n` ticks (R50). -/
theorem tickTimes_eq (n : Nat) (s : State) : tickTimes n s = { s with head := s.head + BitVec.ofNat 6 n } := by
  induction n generalizing s with
  | zero => simp [tickTimes]
  | succ n ih =>
    have hstep : s.head + 1 + BitVec.ofNat 6 n = s.head + BitVec.ofNat 6 (n + 1) := by
      rw [BitVec.ofNat_add, BitVec.add_comm (BitVec.ofNat 6 n), ← BitVec.add_assoc]
      rfl
    rw [tickTimes, ih, tick_head, hstep]
    rfl

theorem tickTimes_latency_head (target : Sector) (s : State) :
    (tickTimes (latencyFrom s.head target) s).head = target := by
  rw [tickTimes_eq]
  exact head_add_latency s.head target

/-- Fewer ticks than the latency leave the head elsewhere: two counts below 64 that turn the head alike are equal. -/
theorem tickTimes_head_ne_of_lt_latency (target : Sector) (s : State) (k : Nat) (hk : k < latencyFrom s.head target) :
    (tickTimes k s).head ≠ target := by
  intro hmeet
  have hsame : BitVec.ofNat 6 k = BitVec.ofNat 6 (latencyFrom s.head target) := by
    rw [tickTimes_eq] at hmeet
    exact BitVec.add_right_inj s.head |>.mp (hmeet.trans (head_add_latency s.head target).symm)
  have hmod := congrArg BitVec.toNat hsame
  have := latencyFrom_le s.head target
  simp only [BitVec.toNat_ofNat] at hmod
  omega

/-- Settles O6: `Latency` at a sector is `latencyFrom`, and the head first meets the target after that many ticks. -/
theorem latencyFormula : Obligations.LatencyFormula := fun s target =>
  ⟨latencyFrom s.head target, drumLatency_of_sector target s, rfl, latencyFrom_eq_emod _ _, latencyFrom_le _ _,
    latencyFrom_eq_zero_iff _ _, tickTimes_latency_head target s, tickTimes_head_ne_of_lt_latency target s⟩

/-- Settles O8: the wait of a read at an address is a function of the head and the sector alone. -/
theorem trackSelectionIsFree : Obligations.TrackSelectionIsFree := by
  intro s t a b hhead hsector
  refine ⟨wordAt s a, wordAt t b, latencyFrom s.head (sectorOf a), drumRead_of_addr a s, ?_⟩
  rw [hhead, hsector]
  exact drumRead_of_addr b t

/-! ## The two forms of an address (R41) -/

theorem flatAddr_toNat (t : Track) (c : Sector) : (flatAddr t c).toNat = t.toNat * 64 + c.toNat := by
  have := t.isLt
  have := c.isLt
  rw [flatAddr, BitVec.toNat_ofNat, Config.sectorsPerTrack]
  omega

@[simp] theorem trackOf_flatAddr (t : Track) (c : Sector) : trackOf (flatAddr t c) = t := by
  have := c.isLt
  apply BitVec.eq_of_toNat_eq
  rw [trackOf_toNat, flatAddr_toNat]
  omega

@[simp] theorem sectorOf_flatAddr (t : Track) (c : Sector) : sectorOf (flatAddr t c) = c := by
  have := c.isLt
  apply BitVec.eq_of_toNat_eq
  rw [sectorOf_toNat, flatAddr_toNat]
  omega

@[simp] theorem flatAddr_of_addr (a : Addr) : flatAddr (trackOf a) (sectorOf a) = a := by
  apply BitVec.eq_of_toNat_eq
  rw [flatAddr_toNat, trackOf_toNat, sectorOf_toNat]
  omega

theorem trackOf_toNat_eq_bitField (a : Addr) : (trackOf a).toNat = bitField (a.setWidth 32) 11 6 := by
  have := a.isLt
  rw [trackOf_toNat, bitField, BitVec.toNat_setWidth, Nat.shiftRight_eq_div_pow]
  omega

theorem sectorOf_toNat_eq_bitField (a : Addr) : (sectorOf a).toNat = bitField (a.setWidth 32) 5 0 := by
  have := a.isLt
  rw [sectorOf_toNat, bitField, BitVec.toNat_setWidth, Nat.shiftRight_zero]
  omega

theorem trackOf_toNat_eq_shift_mask (a : Addr) : (trackOf a).toNat = (a.toNat >>> 6) &&& 0x3F := by
  have := a.isLt
  rw [trackOf_toNat, Nat.and_two_pow_sub_one_eq_mod _ 6, Nat.shiftRight_eq_div_pow]
  omega

theorem sectorOf_toNat_eq_mask (a : Addr) : (sectorOf a).toNat = a.toNat &&& 0x3F := by
  rw [sectorOf_toNat, Nat.and_two_pow_sub_one_eq_mod _ 6]

/-- Settles O9: both maps by their values as numbers, and the flat form of a read. -/
theorem addressFormsAreEquivalent : Obligations.AddressFormsAreEquivalent :=
  ⟨fun t c => ⟨flatAddr_toNat t c, trackOf_flatAddr t c, sectorOf_flatAddr t c⟩,
    fun a => ⟨trackOf_toNat_eq_bitField a, trackOf_toNat_eq_shift_mask a, sectorOf_toNat_eq_bitField a,
      sectorOf_toNat_eq_mask a, flatAddr_of_addr a⟩,
    drumRead_of_addr⟩

/-! ## The write (R49) -/

/-- The stored word is what its address reads as. -/
@[simp] theorem read_storeWord_same (a : Nat) (v : Word) (s : State) : (storeWord a v s).mem.read a = v := by
  simp [Memory.read_write]

/-- A linear address in range, as a flat address, is the same number. -/
theorem toNat_ofNat_linearAddress (t c : Int) (ht : coordInRange t = true) (hc : coordInRange c = true) :
    (BitVec.ofNat 12 (linearAddress t c)).toNat = linearAddress t c :=
  Nat.mod_eq_of_lt (linearAddress_lt t c ht hc)

/-- Settles O11: in range the write is `storeWord` at the linear address, which the later reads and fetches of it see. -/
theorem drumWriteContract : Obligations.DrumWriteContract := by
  intro s track sector v
  rw [← coordInRange_both_iff]
  refine ⟨fun ⟨ht, hc⟩ => ?_, drumWrite_error track sector v s⟩
  refine ⟨_, _, drumWrite_ok track sector v s ht hc, drumLatency_ok sector s hc, rfl, fun a => ?memory, ?read, ?fetch⟩
  case memory =>
    simp only [storeWord_mem, Memory.read_write, linearAddress, eq_comm (a := a)]
  case read =>
    rw [drumRead_ok track sector _ ht hc, read_storeWord_same, storeWord_head]
  case fetch =>
    rw [← linearAddress, fetchRead_eq, wordAt, toNat_ofNat_linearAddress track sector ht hc, read_storeWord_same]
    exact ⟨_, rfl⟩

/-! ## The timed operand accesses (R52, R53) -/

/-- Waiting for a sector puts the head there, charges the wait and changes nothing else. -/
theorem advance_latency (target : Sector) (s : State) :
    advance (latencyFrom s.head target) s =
      { s with head := target, ticks := s.ticks + latencyFrom s.head target } := by
  rw [advance, head_add_latency]

/-- The order of a store and an advance does not matter. -/
theorem storeWord_advance (a : Nat) (v : Word) (n : Nat) (s : State) :
    storeWord a v (advance n s) = advance n (storeWord a v s) := rfl

/-- Settles O15: the operand read is the Drum Store's read, charged its wait. -/
theorem memReadTimed : Obligations.MemReadTimed := by
  intro a s
  refine ⟨wordAt s a, latencyFrom s.head (sectorOf a), drumRead_of_addr a s, rfl, ?_⟩
  rw [memRead_eq, advance_latency]

/-- Settles O16: the operand write is the Drum Store's write, charged its wait, and a store commutes with an advance. -/
theorem memWriteTimed : Obligations.MemWriteTimed := by
  intro a v s
  refine ⟨_, _, _, drumWrite_of_addr a v s, memWrite_eq a v s, advance_latency _ (storeWord a.toNat v s),
    read_storeWord_same a.toNat v s, ?otherOrder⟩
  rw [drumWrite_of_addr, storeWord_advance]
  exact ⟨_, rfl⟩

end Sys2Proof.Machine
end

section
/-! PROOFS. The step (spec/40_step_cycle.md): what the execute phase gives per kind of instruction, what a running and a halted
step do to `halted`, and the induction over a run of steps; from that the statements about `RUNNING` and `HALTED`. -/

namespace Sys2Proof.Machine

/-! ## The fetched word's opcode (R71, R75) -/

theorem bitField_command (w : Word) : bitField w 19 16 = (command w).toNat := by
  simp [bitField, command]

/-- Each of the sixteen `command` values selects a row with that opcode. -/
theorem opcode_instrOfFields (c : Opcode) (a : Addr) : (instrOfFields c a).opcode = c := by
  obtain ⟨k, hk⟩ := c
  interval_cases k <;> rfl

theorem opcode_decode (w : Word) : (decode w).opcode = command w := opcode_instrOfFields _ _

theorem opcode_nextInstr_toNat (s : State) : (nextInstr s).opcode.toNat = bitField (wordAt s s.ic) 19 16 := by
  rw [nextInstr, opcode_decode, bitField_command]

/-! ## The execute phase (R94) -/

theorem exec_bring (operand : Addr) (s : State) :
    exec (.b operand) s =
      .next (setAcc (wordAt s operand) (advance (latencyFrom s.head (sectorOf operand)) s)) := by
  rw [exec, execB, readOperand_eq]
  rfl

theorem exec_hold (operand : Addr) (s : State) :
    exec (.h operand) s =
      .next (advance (latencyFrom s.head (sectorOf operand)) (storeWord operand.toNat s.acc s)) := by
  rw [exec, execH, writeOperand_eq]
  rfl

theorem exec_stop (operand : Addr) (s : State) : exec (.z operand) s = .next (setHalted s) := rfl

theorem exec_reserved (i : Instr) (s : State) (h : i.reserved = true) :
    exec i s = .next (emitUnimplemented i.opcode s) := by
  cases i with
  | b | h | z => cases h
  | _ => rfl

/-- The four kinds of instruction. -/
theorem instr_kind_cases (i : Instr) :
    (∃ a, i = .b a) ∨ (∃ a, i = .h a) ∨ (∃ a, i = .z a) ∨ i.reserved = true := by
  cases i <;> simp [Instr.reserved]

theorem opcode_ne_stop_of_reserved (i : Instr) (h : i.reserved = true) : i.opcode.toNat ≠ 0xF := by
  cases i with
  | b | h | z => cases h
  | _ => simp [Instr.opcode]

/-- Of the sixteen instructions Stop alone writes `halted`. -/
theorem exec_halted_iff (i : Instr) (s t : State) (h : exec i s = .next t) :
    t.halted = true ↔ s.halted = true ∨ i.opcode.toNat = 0xF := by
  obtain ⟨a, rfl⟩ | ⟨a, rfl⟩ | ⟨a, rfl⟩ | hi := instr_kind_cases i
  · cases (exec_bring a s).symm.trans h
    simp [Instr.opcode]
  · cases (exec_hold a s).symm.trans h
    simp [Instr.opcode]
  · cases (exec_stop a s).symm.trans h
    simp [Instr.opcode]
  · cases (exec_reserved i s hi).symm.trans h
    simp [opcode_ne_stop_of_reserved i hi]

/-! ## One step (R90, R97) -/

/-- The step of a running machine: the fetch, charged, then the decoded instruction and the counter advance. -/
theorem step_running (s : State) (h : s.halted = false) :
    step s = finishStep s.ic
      (exec (nextInstr s) (advance (latencyFrom s.head (sectorOf s.ic) + 1) s)) := by
  rw [step, stepWith_running _ s h, runWord_of_not_strict _ _ _ _ rfl, nextInstr]

/-- A running machine's step ends in `HALTED` exactly when it executes a Stop. -/
theorem step_running_halted_iff (s t : State) (hrun : s.halted = false) (hstep : step s = .next t) :
    t.halted = true ↔ bitField (wordAt s s.ic) 19 16 = 0xF := by
  rw [step_running s hrun] at hstep
  obtain ⟨u, hexec, rfl⟩ := finishStep_next _ _ _ hstep
  rw [counterAdvance_halted, exec_halted_iff _ _ _ hexec, opcode_nextInstr_toNat]
  simp [hrun]

theorem step_keeps_running (s t : State) (hrun : s.halted = false) (hstep : step s = .next t)
    (hword : bitField (wordAt s s.ic) 19 16 ≠ 0xF) : t.halted = false :=
  Bool.eq_false_iff.mpr fun ht => hword ((step_running_halted_iff s t hrun hstep).mp ht)

/-! ## Runs of steps -/

theorem stepsWith_succ_of_next (cfg : Config) (n : Nat) (s t : State) (h : stepWith cfg s = .next t) :
    stepsWith cfg (n + 1) s = stepsWith cfg n t := by
  rw [stepsWith, h]

theorem stepTrace_succ_of_next (cfg : Config) (n : Nat) (s t : State) (h : stepWith cfg s = .next t) :
    stepTrace cfg (n + 1) s = s :: stepTrace cfg n t := by
  rw [stepTrace, h]

/-- A run of `n + 1` steps that gives a next state is a step that gives one and a run of `n` steps from there. -/
theorem stepsWith_succ_next (cfg : Config) (n : Nat) (s t : State) (h : stepsWith cfg (n + 1) s = .next t) :
    ∃ u, stepWith cfg s = .next u ∧ stepsWith cfg n u = .next t := by
  rw [stepsWith] at h
  split at h
  · next u hu => exact ⟨u, hu, h⟩
  · cases h
  · cases h

/-- The induction over a run: what holds at its start and is kept by each of its steps holds at its end. -/
theorem stepsWith_invariant (cfg : Config) (P : State → Prop) (n : Nat) (s t : State) (hs : P s)
    (hkeep : ∀ u ∈ stepTrace cfg n s, ∀ v, P u → stepWith cfg u = .next v → P v)
    (hrun : stepsWith cfg n s = .next t) : P t := by
  induction n generalizing s with
  | zero => cases hrun; exact hs
  | succ n ih =>
    obtain ⟨u, hstep, hrest⟩ := stepsWith_succ_next cfg n s t hrun
    rw [stepTrace_succ_of_next cfg n s u hstep, List.forall_mem_cons] at hkeep
    obtain ⟨hfirst, hlater⟩ := hkeep
    exact ih u (hfirst u hs hstep) hlater hrest

/-! ## HALTED (R91) -/

theorem stepsWith_halted (cfg : Config) (n : Nat) (s : State) (h : s.halted = true) : stepsWith cfg n s = .next s := by
  induction n with
  | zero => rfl
  | succ n ih => rw [stepsWith_succ_of_next cfg n s s (stepWith_halted cfg s h), ih]

/-- Settles O24: the halted gate answers the same state, and so by induction does any number of steps. -/
theorem haltedGate : Obligations.HaltedGate := fun cfg s h =>
  ⟨stepWith_halted cfg s h, fun n => stepsWith_halted cfg n s h⟩

/-! ## Leaving and entering HALTED (R97) -/

/-- The host's operations other than a step and the resets leave `halted` as it was. -/
theorem act_halted_of_host (cfg : Config) (x : Action) (s t : State) (hmachine : x ≠ .machineReset)
    (hunit : x ≠ .unitReset) (hstep : x ≠ .step) (hact : act cfg x s = .next t) : t.halted = s.halted := by
  cases x with
  | step => exact absurd rfl hstep
  | machineReset => exact absurd rfl hmachine
  | unitReset => exact absurd rfl hunit
  | inspect | readEvents => cases hact; rfl
  | write tr c v =>
    rw [act] at hact
    obtain ⟨-, -, hok⟩ | herr := hostWrite_cases tr c v s
    · rw [hok] at hact; cases hact; rfl
    · rw [herr] at hact; cases hact
  | read tr c =>
    rw [act] at hact
    obtain hok | herr := hostRead_cases tr c s
    · rw [hok] at hact; cases hact; rfl
    · rw [herr] at hact; cases hact

/-- Nothing short of a reset leaves `HALTED`. -/
theorem act_keeps_halted (cfg : Config) (x : Action) (s t : State) (hmachine : x ≠ .machineReset)
    (hunit : x ≠ .unitReset) (hact : act cfg x s = .next t) (hs : s.halted = true) : t.halted = true := by
  by_cases hx : x = .step
  · subst hx
    cases (stepWith_halted cfg s hs).symm.trans hact
    exact hs
  · rw [act_halted_of_host cfg x s t hmachine hunit hx hact, hs]

/-- A run that executes no Stop is still running at its end. -/
theorem stepsWith_running_of_no_stop (n : Nat) (s t : State) (hs : s.halted = false)
    (hrun : stepsWith Config.default n s = .next t)
    (hwords : ∀ u ∈ stepTrace Config.default n s, bitField (wordAt u u.ic) 19 16 ≠ 0xF) : t.halted = false :=
  stepsWith_invariant _ (fun u => u.halted = false) n s t hs
    (fun u hu v hrunning hstep => step_keeps_running u v hrunning hstep (hwords u hu)) hrun

/-! ## The drum with no program -/

theorem nextInstr_of_mem_nil (s : State) (h : s.mem = []) : nextInstr s = .u0 0 := by
  rw [nextInstr, wordAt, h, Memory.read_nil]
  decide

/-- A running machine on the all-zero drum: every step executes the reserved opcode 0x0. -/
theorem step_of_mem_nil (s : State) (hmem : s.mem = []) (hrun : s.halted = false) :
    step s = .next (counterAdvance s.ic
      (emitUnimplemented 0x0 (advance (latencyFrom s.head (sectorOf s.ic) + 1) s))) := by
  rw [step_running s hrun, nextInstr_of_mem_nil s hmem]
  rfl

/-- No step of a running machine on the all-zero drum stores a word or halts. -/
theorem step_keeps_mem_nil_running (s t : State) (h : s.mem = [] ∧ s.halted = false) (hstep : step s = .next t) :
    t.mem = [] ∧ t.halted = false := by
  obtain ⟨hmem, hrun⟩ := h
  cases (step_of_mem_nil s hmem hrun).symm.trans hstep
  exact ⟨hmem, hrun⟩

/-- The machine started with no program never halts. -/
theorem stepsWith_reset_running (n : Nat) (t : State) (hrun : stepsWith Config.default n State.reset = .next t) :
    t.halted = false :=
  And.right <| stepsWith_invariant _ (fun u => u.mem = [] ∧ u.halted = false) n State.reset t ⟨rfl, rfl⟩
    (fun u _ v => step_keeps_mem_nil_running u v) hrun

/-- Settles O36, clause by clause: one running step, one halted step, one action, a run without Stop, the run from reset. -/
theorem onlyStopHalts : Obligations.OnlyStopHalts :=
  ⟨reset_halted, step_running_halted_iff, stepWith_halted Config.default,
    fun cfg x s t hmachine hunit hact =>
      ⟨act_keeps_halted cfg x s t hmachine hunit hact,
        fun hx => act_halted_of_host cfg x s t hmachine hunit hx hact⟩,
    stepsWith_running_of_no_stop, stepsWith_reset_running⟩

end Sys2Proof.Machine
end

section
/-! PROOFS. The instruction stream (spec/42_control.md): what one executed step does to `ic`, what `n` steps of a machine that is
still running do to it, and where a run that ended executed its Stop. -/

namespace Sys2Proof.Machine

/-! ## The counter over a run (R95, R121) -/

/-- Every executed step, Stop's included, moves the counter on by one from the instruction it fetched. -/
theorem step_running_ic (s t : State) (hrun : s.halted = false) (hstep : step s = .next t) : t.ic = s.ic + 1 := by
  rw [step_running s hrun] at hstep
  obtain ⟨u, -, rfl⟩ := finishStep_next _ _ _ hstep
  exact counterAdvance_ic s.ic u

/-- A machine still running after some steps was running before them. -/
theorem running_of_stepsWith_running (cfg : Config) (n : Nat) (s t : State) (hsteps : stepsWith cfg n s = .next t)
    (ht : t.halted = false) : s.halted = false := by
  refine Bool.eq_false_iff.mpr fun hs => ?_
  cases (stepsWith_halted cfg n s hs).symm.trans hsteps
  exact Bool.eq_false_iff.mp ht hs

theorem stepsWith_running_ic (n : Nat) (s t : State) (hsteps : stepsWith Config.default n s = .next t)
    (ht : t.halted = false) : t.ic.toNat = (s.ic.toNat + n) % 4096 := by
  induction n generalizing s with
  | zero =>
    cases hsteps
    exact (Nat.mod_eq_of_lt t.ic.isLt).symm
  | succ n ih =>
    have hs : s.halted = false := running_of_stepsWith_running _ _ s t hsteps ht
    obtain ⟨u, hstep, hrest⟩ := stepsWith_succ_next _ n s t hsteps
    have hnext : u.ic.toNat = (s.ic.toNat + 1) % 4096 := by
      rw [step_running_ic s u hs hstep, BitVec.toNat_add]
      rfl
    rw [ih u hrest, hnext]
    omega

/-! ## The Stop that ended a run (R97, R121) -/

/-- A run none of whose executed steps is a Stop keeps a running machine running, so one that ends in `HALTED` executed one. -/
theorem exists_stop_of_stepsWith_halted (n : Nat) (s t : State) (hs : s.halted = false)
    (hsteps : stepsWith Config.default n s = .next t) (ht : t.halted = true) :
    ∃ u ∈ stepTrace Config.default n s, u.halted = false ∧ bitField (wordAt u u.ic) 19 16 = 0xF := by
  by_contra hnone
  have hrunning : t.halted = false :=
    stepsWith_invariant _ (fun u => u.halted = false) n s t hs
      (fun u hu v hrun hstep => step_keeps_running u v hrun hstep fun hstop => hnone ⟨u, hu, hrun, hstop⟩) hsteps
  exact Bool.eq_false_iff.mp hrunning ht

/-- Settles O39: the counter by induction on the number of steps, the Stop by the invariant `RUNNING` of a run without one. -/
theorem counterIsSequential : Obligations.CounterIsSequential := fun n s t hsteps =>
  ⟨stepsWith_running_ic n s t hsteps, fun ht =>
    s.halted.eq_false_or_eq_true.imp_right fun hs => exists_stop_of_stepsWith_halted n s t hs hsteps ht⟩

end Sys2Proof.Machine
end

section
/-! PROOFS. The host's port (spec/50_interfaces.md): what the host reads, and what each of its operations leaves as it was. -/

namespace Sys2Proof.Machine

/-! ## Reading (R135) -/

/-- The host's read at a flat address never fails: it answers the word there. -/
theorem hostRead_of_addr (a : Addr) (s : State) :
    hostRead (trackOf a).toNat (sectorOf a).toNat s = .ok (wordAt s a) := by
  rw [hostRead, coordInRange_sector, coordInRange_sector, linearAddress_of_addr]
  rfl

/-- A read at a flat address, as an action of a run, leaves the state as it was. -/
theorem act_read_of_addr (cfg : Config) (a : Addr) (s : State) :
    act cfg (.read (trackOf a).toNat (sectorOf a).toNat) s = .next s := by
  rw [act, hostRead_of_addr]
  rfl

/-- The head is not on the list of what inspection shows (R31). -/
theorem inspect_with_head (h : Sector) (s : State) : inspect { s with head := h } = inspect s := rfl

theorem hostRead_with_head (track sector : Int) (h : Sector) (s : State) :
    hostRead track sector { s with head := h } = hostRead track sector s := rfl

/-! ## What the host's operations change (R135, R136) -/

/-- A direct word write that does not fault is one stored word. -/
theorem act_write_next (cfg : Config) (track sector value : Int) (s t : State)
    (h : act cfg (.write track sector value) s = .next t) :
    t = storeWord (linearAddress track sector) (BitVec.ofInt 32 value) s := by
  rw [act] at h
  obtain ⟨-, -, hok⟩ | herr := hostWrite_cases track sector value s
  · rw [hok] at h; cases h; rfl
  · rw [herr] at h; cases h

/-- A read that does not fault leaves the state as it was. -/
theorem act_read_next (cfg : Config) (track sector : Int) (s t : State)
    (h : act cfg (.read track sector) s = .next t) : t = s := by
  rw [act] at h
  obtain hok | herr := hostRead_cases track sector s
  · rw [hok] at h; cases h; rfl
  · rw [herr] at h; cases h

/-- The host's operations other than a step and the resets change at most the drum's words. -/
theorem act_frame_of_host (cfg : Config) (x : Action) (s t : State) (hstep : x ≠ .step) (hmachine : x ≠ .machineReset)
    (hunit : x ≠ .unitReset) (hact : act cfg x s = .next t) : t = { s with mem := t.mem } := by
  cases x with
  | step => exact absurd rfl hstep
  | machineReset => exact absurd rfl hmachine
  | unitReset => exact absurd rfl hunit
  | inspect | readEvents => cases hact; rfl
  | write track sector value => cases act_write_next cfg track sector value s t hact; rfl
  | read track sector => cases act_read_next cfg track sector s t hact; rfl

/-- Settles O53: a read at an address answers its word, inspection copies five fields and not the head, and of the host's
operations short of a reset or a step the word write alone changes the state, in its memory. -/
theorem inspectionChangesNothing : Obligations.InspectionChangesNothing :=
  ⟨fun cfg s a h =>
    ⟨rfl, act_read_of_addr cfg a s, hostRead_of_addr a s, rfl, rfl, rfl, rfl, rfl, inspect_with_head h s,
      hostRead_with_head _ _ h s⟩,
    act_frame_of_host⟩

end Sys2Proof.Machine
end

section
/-! PROOFS. The encoding (spec/30_encoding.md): the fields of a word as numbers, what the decoder answers of them, and that the
canonical word of an instruction has that instruction's fields. -/

namespace Sys2Proof.Machine

/-! ## The fields of a word (R71, R72) -/

theorem bitField_operandAddress (w : Word) : bitField w 13 2 = (operandAddress w).toNat := by
  simp [bitField, operandAddress]

theorem bitField_unusedMiddle (w : Word) : bitField w 15 14 = (unusedMiddle w).toNat := by
  simp [bitField, unusedMiddle]

theorem operandField_eq (w : Word) : operandField w = operandAddress w := by
  rw [operandField, bitField_operandAddress, BitVec.ofNat_toNat, BitVec.setWidth_eq]

/-! ## The decoder (R73, R74, R75) -/

theorem operand_instrOfFields (c : Opcode) (a : Addr) : (instrOfFields c a).operand = a := by
  obtain ⟨k, hk⟩ := c
  interval_cases k <;> rfl

theorem operand_decode (w : Word) : (decode w).operand = operandAddress w := operand_instrOfFields _ _

/-- An instruction is the row its own two fields select. -/
theorem instrOfFields_opcode_operand (i : Instr) : instrOfFields i.opcode i.operand = i := by
  cases i <;> rfl

/-- The row of a word's opcode, with the operand of the word. -/
theorem decode_of_bitField (w : Word) (c : Opcode) (h : bitField w 19 16 = c.toNat) :
    decode w = instrOfFields c (operandField w) := by
  rw [bitField_command, BitVec.toNat_inj] at h
  rw [operandField_eq, ← h]
  rfl

/-- Settles O3: each row is the one `instrOfFields` selects for its opcode. -/
theorem opcodeMapRows : Obligations.OpcodeMapRows := fun w =>
  ⟨decode_of_bitField w 0x0, decode_of_bitField w 0x1, decode_of_bitField w 0x2, decode_of_bitField w 0x3,
    decode_of_bitField w 0x4, decode_of_bitField w 0x5, decode_of_bitField w 0x6, decode_of_bitField w 0x7,
    decode_of_bitField w 0x8, decode_of_bitField w 0x9, decode_of_bitField w 0xA, decode_of_bitField w 0xB,
    decode_of_bitField w 0xC, decode_of_bitField w 0xD, decode_of_bitField w 0xE, decode_of_bitField w 0xF⟩

/-- Settles O2: the decoder reads the two fields alone, and the instruction it answers gives both back. -/
theorem decodeIgnoresUnusedBits : Obligations.DecodeIgnoresUnusedBits := by
  intro v w
  simp only [bitField_command, bitField_operandAddress, BitVec.toNat_inj]
  constructor
  · intro h
    have hopcode := congrArg Instr.opcode h
    have hoperand := congrArg Instr.operand h
    rw [opcode_decode, opcode_decode] at hopcode
    rw [operand_decode, operand_decode] at hoperand
    exact ⟨hopcode, hoperand⟩
  · rintro ⟨hopcode, hoperand⟩
    rw [decode, decode, decodeFields, decodeFields, hopcode, hoperand]

/-- Settles O4: nine evaluations of the decoder. -/
theorem specWordsDecode : Obligations.SpecWordsDecode := by
  unfold Obligations.SpecWordsDecode
  decide

/-! ## The encoder (R79) -/

theorem command_encodeFields (c : Opcode) (a : Addr) : command (encodeFields c a) = c := by
  apply BitVec.eq_of_getLsbD_eq
  intro k hk
  have hword : 16 + k < 32 := by omega
  have hhigh : a.getLsbD (16 + k - 2) = false := BitVec.getLsbD_of_ge a _ (by omega)
  simp [command, encodeFields, hk, hword, hhigh]

theorem operandAddress_encodeFields (c : Opcode) (a : Addr) : operandAddress (encodeFields c a) = a := by
  apply BitVec.eq_of_getLsbD_eq
  intro k hk
  have hlow : 2 + k < 16 := by omega
  have hword : 2 + k < 32 := by omega
  have hplace : ¬ 2 + k ≤ 1 := by omega
  simp [operandAddress, encodeFields, hk, hlow, hword, hplace]

theorem unusedMiddle_encodeFields (c : Opcode) (a : Addr) : unusedMiddle (encodeFields c a) = 0 := by
  apply BitVec.eq_of_getLsbD_eq
  intro k hk
  have hlow : 14 + k < 16 := by omega
  have hhigh : a.getLsbD (14 + k - 2) = false := BitVec.getLsbD_of_ge a _ (by omega)
  simp [unusedMiddle, encodeFields, hlow, hhigh]

/-- Encoding the two fields of a word clears every bit that belongs to neither: the mask is the bits 19:16 and 13:2. -/
theorem encodeFields_of_word (w : Word) : encodeFields (command w) (operandAddress w) = w &&& 0x000F3FFC := by
  apply BitVec.eq_of_getLsbD_eq
  intro k hk
  interval_cases k <;> simp [command, operandAddress, encodeFields]

theorem decode_encode (i : Instr) : decode (encode i) = i := by
  rw [encode, decode, decodeFields, command_encodeFields, operandAddress_encodeFields, instrOfFields_opcode_operand]

/-- A word with bits 15:14 clear decodes under either setting of `OPERAND_STRICT`. -/
theorem decodeWith_of_middle_zero (strict : Bool) (w : Word) (h : unusedMiddle w = 0) :
    decodeWith strict w = .ok (decode w) := by
  simp [decodeWith, h]

theorem encode_decode (w : Word) : encode (decode w) = w &&& 0x000F3FFC := by
  rw [encode, opcode_decode, operand_decode, encodeFields_of_word]

/-- Settles O1: the encoder places both fields where the decoder reads them and leaves every other bit clear. -/
theorem encodeDecodeRoundTrip : Obligations.EncodeDecodeRoundTrip := by
  refine ⟨fun i strict => ⟨decode_encode i, ?_⟩, encode_decode⟩
  rw [decodeWith_of_middle_zero strict (encode i) (unusedMiddle_encodeFields _ _), decode_encode]

/-! ## The strict setting (R73, R155) -/

theorem runWord_of_middle_zero (cfg : Config) (a : Addr) (w : Word) (s : State) (h : unusedMiddle w = 0) :
    runWord cfg a w s = finishStep a (exec (decode w) s) := by
  rw [runWord, decodeWith_of_middle_zero _ w h]

/-- The strict decoder refuses a word with bits 15:14 set. -/
theorem decodeWith_strict_of_middle_ne_zero (w : Word) (h : unusedMiddle w ≠ 0) :
    decodeWith true w = .error (.operandBitsSet w) := if_pos (bne_iff_ne.mpr h)

theorem runWord_refused (cfg : Config) (a : Addr) (w : Word) (s : State) (hstrict : cfg.operandStrict = true)
    (h : unusedMiddle w ≠ 0) : runWord cfg a w s = .refused (.operandBitsSet w) := by
  rw [runWord, hstrict, decodeWith_strict_of_middle_ne_zero w h]

theorem stepWith_of_not_strict (cfg : Config) (s : State) (hstrict : cfg.operandStrict = false) :
    stepWith cfg s = step s := by
  simp only [step, stepWith, runWord, hstrict, Config.default]

/-- Settles O5: the two branches of the strict decoder at the fetched word. -/
theorem strictRefusesBits15And14 : Obligations.StrictRefusesBits15And14 := by
  intro cfg s hrun
  have hzero : bitField (wordAt s s.ic) 15 14 = 0 ↔ unusedMiddle (wordAt s s.ic) = 0 := by
    rw [bitField_unusedMiddle, ← BitVec.toNat_inj]
    rfl
  refine ⟨fun hstrict hbits => ?refused, fun _ hbits => ?clear, stepWith_of_not_strict cfg s⟩
  case refused =>
    rw [stepWith_running cfg s hrun, runWord_refused cfg _ _ _ hstrict (hzero.not.mp hbits)]
  case clear =>
    rw [stepWith_running cfg s hrun, runWord_of_middle_zero cfg _ _ _ (hzero.mp hbits), step_running s hrun]
    rfl

end Sys2Proof.Machine
end

section
/-! PROOFS. The Drum Store, continued (spec/20_memory.md, 40_step_cycle.md R92): the laws of the latency, the ticks of an advance,
the timed fetch, and that the canonical form of a drum is unique. -/

namespace Sys2Proof.Machine

/-! ## The latency, there and back (R47) -/

/-- The wait is the distance of the two sectors modulo 64. -/
theorem latencyFrom_eq_sub (head target : Sector) : latencyFrom head target = (target - head).toNat := by
  have hwait := latencyFrom_eq_emod head target
  have := head.isLt
  rw [BitVec.toNat_sub]
  omega

/-- There and back is a whole revolution, unless both are one sector. -/
theorem latencyFrom_add_latencyFrom (c t : Sector) :
    latencyFrom c t + latencyFrom t c = if c = t then 0 else 64 := by
  have hthere := latencyFrom_eq_emod c t
  have hback := latencyFrom_eq_emod t c
  have := c.isLt
  have := t.isLt
  simp only [← BitVec.toNat_inj]
  split <;> omega

theorem add_latencyFrom_mod (c t : Sector) : (c.toNat + latencyFrom c t) % 64 = t.toNat := by
  have hthere := latencyFrom_eq_emod c t
  have := t.isLt
  omega

/-- Settles O7: `Latency` at a sector is `latencyFrom`, whose laws these are. -/
theorem latencyLaws : Obligations.LatencyLaws := by
  intro s u
  refine ⟨latencyFrom s.head u.head, latencyFrom u.head s.head, drumLatency_of_sector _ s, drumLatency_of_sector _ u,
    latencyFrom_le _ _, latencyFrom_eq_zero_iff _ _, add_latencyFrom_mod _ _, latencyFrom_add_latencyFrom _ _,
    fun hhead => ?last, fun hhead => ?first, ?same⟩
  case last =>
    have h := drumLatency_of_sector 63 s
    rw [hhead] at h
    exact h
  case first =>
    have h := drumLatency_of_sector 0 s
    rw [hhead] at h
    exact h
  case same => rw [drumLatency_of_sector, (latencyFrom_eq_zero_iff _ _).mpr rfl]

/-! ## Ticks and advances (R50, R51) -/

/-- Settles O13: one tick adds 1 to the head, and 64 of them add 0 modulo 64. -/
theorem tickTurnsHeadByOne : Obligations.TickTurnsHeadByOne := by
  refine fun s => ⟨?one, rfl, ?revolution⟩
  case one => rw [tick_head, BitVec.toNat_add]; rfl
  case revolution =>
    have hturn : s.head + BitVec.ofNat 6 64 = s.head := BitVec.add_zero s.head
    rw [tickTimes_eq, hturn]

/-- An advance is its ticks, counted. -/
theorem advance_eq_tickTimes (n : Nat) (s : State) : advance n s = { tickTimes n s with ticks := s.ticks + n } := by
  rw [tickTimes_eq]
  rfl

theorem advance_head_toNat (n : Nat) (s : State) : (advance n s).head.toNat = (s.head.toNat + n) % 64 := by
  rw [advance_head, BitVec.toNat_add, BitVec.toNat_ofNat]
  omega

@[simp] theorem advance_zero (s : State) : advance 0 s = s := by
  rw [advance, BitVec.add_zero]
  rfl

@[simp] theorem advance_advance (n m : Nat) (s : State) : advance m (advance n s) = advance (n + m) s := by
  simp only [advance, BitVec.ofNat_add, BitVec.add_assoc, Nat.add_assoc]

/-- Settles O14: the net effect of an advance is that of its ticks, and it composes as addition does. -/
theorem advanceIsTicks : Obligations.AdvanceIsTicks := by
  intro n m s
  have hhead : (tickTimes n s).head = (advance n s).head := by rw [tickTimes_eq, advance_head]
  exact ⟨advance_eq_tickTimes n s, hhead ▸ advance_head_toNat n s, advance_head_toNat n s, rfl, advance_advance n m s,
    advance_zero s⟩

/-! ## The fetch (R92) -/

/-- The fetch's charge leaves the head one sector past the address, wherever it was. -/
theorem advance_fetch (a : Addr) (s : State) :
    advance (latencyFrom s.head (sectorOf a) + 1) s =
      { s with head := sectorOf a + 1, ticks := s.ticks + (latencyFrom s.head (sectorOf a) + 1) } := by
  rw [advance, BitVec.ofNat_add, ← BitVec.add_assoc, head_add_latency]
  rfl

/-- Settles O17: the fetch is the Drum Store's read, charged its wait and one word-time. -/
theorem fetchTimed : Obligations.FetchTimed := by
  intro a s
  have hwait := latencyFrom_le s.head (sectorOf a)
  refine ⟨wordAt s a, latencyFrom s.head (sectorOf a), drumRead_of_addr a s, rfl, by omega, by omega, ?_⟩
  rw [fetchRead_eq, advance_fetch]

/-! ## The canonical form (log entry 19) -/

/-- The cells of a canonical memory are the addresses that read as something else than an unlisted one does. -/
theorem Memory.mem_iff_read (m : Memory) (h : m.wf) (c : Cell) :
    c ∈ m ↔ m.read c.1 = c.2 ∧ c.2 ≠ unlistedWord := by
  constructor
  · exact fun hc => ⟨Memory.read_of_listed m h c hc, (h.2 c hc).2⟩
  · rintro ⟨hread, hne⟩
    by_cases hlisted : ∃ d ∈ m, d.1 = c.1
    · obtain ⟨d, hd, haddr⟩ := hlisted
      have hword : d.2 = c.2 := by rw [← Memory.read_of_listed m h d hd, haddr, hread]
      rwa [← Prod.ext haddr hword]
    · push Not at hlisted
      exact absurd (hread.symm.trans (Memory.read_of_not_listed m c.1 hlisted)) hne

/-- An address off the drum reads as unlisted in every canonical memory. -/
theorem Memory.read_of_off_drum (m : Memory) (h : m.wf) (a : Nat) (ha : 4096 ≤ a) : m.read a = unlistedWord :=
  Memory.read_of_not_listed m a fun c hc haddr => absurd (h.2 c hc).1 (by rw [haddr]; simpa using ha)

/-- Canonical memories that read alike at every address of the drum are one list. -/
theorem Memory.eq_of_read_eq (m n : Memory) (hm : m.wf) (hn : n.wf) (h : ∀ a : Nat, a < 4096 → m.read a = n.read a) :
    m = n := by
  have hread (a : Nat) : m.read a = n.read a := by
    rcases Nat.lt_or_ge a 4096 with ha | ha
    · exact h a ha
    · rw [Memory.read_of_off_drum m hm a ha, Memory.read_of_off_drum n hn a ha]
  have : Std.Irrefl fun c d : Cell => c.1 < d.1 := ⟨fun c => Nat.lt_irrefl c.1⟩
  have : Std.Antisymm fun c d : Cell => c.1 < d.1 := ⟨fun c d hcd hdc => absurd hcd (Nat.lt_asymm hdc)⟩
  refine List.Pairwise.eq_of_mem_iff hm.1 hn.1 fun c => ?_
  rw [Memory.mem_iff_read m hm, Memory.mem_iff_read n hn, hread]

/-- Settles O18: canonical lists are sorted, and their cells are what reads say. -/
theorem canonicalDrumIsUnique : Obligations.CanonicalDrumIsUnique := Memory.eq_of_read_eq

end Sys2Proof.Machine
end

section
/-! PROOFS. The execute phase (spec/41_data_transfer.md, 42_control.md, 43_reserved_opcodes.md): the state each kind of
instruction answers, field by field, and the frame of all sixteen. -/

namespace Sys2Proof.Machine

/-- The wait for a sector, paid, in the spec's own form of the distance (R46). -/
theorem advance_latency_sub (target : Sector) (s : State) :
    advance (latencyFrom s.head target) s =
      { s with head := target, ticks := s.ticks + (target - s.head).toNat } := by
  rw [advance_latency, latencyFrom_eq_sub]

/-- Settles O19: the timed read of the operand, into `acc`. -/
theorem bringExecutes : Obligations.BringExecutes := by
  intro operand s
  rw [exec_bring, advance_latency_sub]
  rfl

/-- What every address reads as after one word was stored. -/
theorem read_storeWord (a b : Nat) (v : Word) (s : State) :
    (storeWord a v s).mem.read b = if b = a then v else s.mem.read b := by
  simp only [storeWord_mem, Memory.read_write, eq_comm (a := a)]

/-- Settles O20: the timed write of `acc` to the operand. -/
theorem holdExecutes : Obligations.HoldExecutes := by
  intro operand s
  exact ⟨_, exec_hold operand s, advance_latency_sub _ (storeWord operand.toNat s.acc s),
    fun a => read_storeWord operand.toNat a s.acc s⟩

/-- Settles O21: the execute phase of Stop is `setHalted`. -/
theorem stopExecutes : Obligations.StopExecutes := exec_stop

/-- Settles O22: each of the thirteen is reserved. -/
theorem reservedExecute : Obligations.ReservedExecute := fun a s =>
  ⟨exec_reserved (.u0 a) s rfl, exec_reserved (.u2 a) s rfl, exec_reserved (.u3 a) s rfl, exec_reserved (.u4 a) s rfl,
    exec_reserved (.u5 a) s rfl, exec_reserved (.u6 a) s rfl, exec_reserved (.u7 a) s rfl, exec_reserved (.u8 a) s rfl,
    exec_reserved (.u9 a) s rfl, exec_reserved (.uA a) s rfl, exec_reserved (.uB a) s rfl, exec_reserved (.uC a) s rfl,
    exec_reserved (.uD a) s rfl⟩

/-- The reserved opcodes are those of no Bring, Hold or Stop (R125). -/
theorem reserved_iff_opcode (i : Instr) :
    i.reserved = true ↔ i.opcode ≠ 0x1 ∧ i.opcode ≠ 0xE ∧ i.opcode ≠ 0xF := by
  cases i <;> simp [Instr.reserved, Instr.opcode]

/-- Settles O23, kind by kind: each kind changes what its row of the frame allows it. -/
theorem executeFrame : Obligations.ExecuteFrame := by
  intro i s t hexec
  obtain ⟨operand, rfl⟩ | ⟨operand, rfl⟩ | ⟨operand, rfl⟩ | hi := instr_kind_cases i
  · cases (exec_bring operand s).symm.trans hexec
    exact ⟨rfl, .inr ⟨operand, rfl⟩, fun _ => .inl rfl, .inl rfl, .inl rfl, .inr ⟨operand, .inl rfl⟩⟩
  · cases (exec_hold operand s).symm.trans hexec
    refine ⟨rfl, .inl rfl, fun a => ?memory, .inl rfl, .inl rfl, .inr ⟨operand, .inr rfl⟩⟩
    by_cases ha : a = operand.toNat
    · exact .inr ⟨operand, rfl, ha⟩
    · exact .inl ((read_storeWord operand.toNat a s.acc s).trans (if_neg ha))
  · cases (exec_stop operand s).symm.trans hexec
    exact ⟨rfl, .inl rfl, fun _ => .inl rfl, .inr ⟨operand, rfl⟩, .inl rfl, .inl ⟨rfl, rfl⟩⟩
  · cases (exec_reserved i s hi).symm.trans hexec
    exact ⟨rfl, .inl rfl, fun _ => .inl rfl, .inl rfl, .inr ((reserved_iff_opcode i).mp hi), .inl ⟨rfl, rfl⟩⟩

end Sys2Proof.Machine
end

section
/-! PROOFS. The whole step (spec/40_step_cycle.md): `StepsTo` says once everything a step can do, kind by kind of instruction, and
the statements about one step or two follow from its cases. -/

namespace Sys2Proof.Machine

/-! ## The fetched instruction and its word -/

theorem operand_nextInstr (s : State) : (nextInstr s).operand = operandField (wordAt s s.ic) := by
  rw [nextInstr, operand_decode, operandField_eq]

theorem ofNat_bitField_command (s : State) :
    BitVec.ofNat 4 (bitField (wordAt s s.ic) 19 16) = (nextInstr s).opcode := by
  rw [← opcode_nextInstr_toNat, BitVec.ofNat_toNat, BitVec.setWidth_eq]

theorem bitField_of_nextInstr (s : State) (i : Instr) (h : nextInstr s = i) :
    bitField (wordAt s s.ic) 19 16 = i.opcode.toNat := by
  rw [← opcode_nextInstr_toNat, h]

theorem operandField_of_nextInstr (s : State) (i : Instr) (h : nextInstr s = i) :
    operandField (wordAt s s.ic) = i.operand := by
  rw [← operand_nextInstr, h]

/-- A fetched word is a reserved opcode exactly when its bits 19:16 are not in 0x1, 0xE, 0xF. -/
theorem reserved_nextInstr_iff (s : State) :
    (nextInstr s).reserved = true ↔ bitField (wordAt s s.ic) 19 16 ∉ [0x1, 0xE, 0xF] := by
  rw [reserved_iff_opcode, ← opcode_nextInstr_toNat]
  simp [← BitVec.toNat_inj]

/-! ## The cost of the next step (R99) -/

theorem stepCost_halted (s : State) (h : s.halted = true) : stepCost s = 0 := if_pos h

theorem stepCost_running (s : State) (h : s.halted = false) :
    stepCost s = fetchCost s.head s.ic + execCost (nextInstr s) s.ic := if_neg (by simp [h])

/-- The fetch costs the wait and one word-time. -/
theorem fetchCost_eq (h : Sector) (a : Addr) : fetchCost h a = latencyFrom h (sectorOf a) + 1 := by
  rw [latencyFrom_eq_sub, fetchCost]

theorem execCost_of_drumOperand (i : Instr) (a operand : Addr) (h : i.drumOperand = some operand) :
    execCost i a = (sectorOf operand - (sectorOf a + 1)).toNat := by
  rw [execCost, h]
  rfl

theorem execCost_of_no_drumOperand (i : Instr) (a : Addr) (h : i.drumOperand = none) : execCost i a = 0 := by
  rw [execCost, h]

theorem drumOperand_of_reserved (i : Instr) (h : i.reserved = true) : i.drumOperand = none := by
  cases i with
  | b | h | z => cases h
  | _ => rfl

/-- The fetch alone, charged: the head one past the instruction's sector, the whole cost in `ticks`. -/
theorem advance_fetch_only (s : State) (hrun : s.halted = false) (hi : (nextInstr s).drumOperand = none) :
    advance (latencyFrom s.head (sectorOf s.ic) + 1) s =
      { s with head := sectorOf s.ic + 1, ticks := s.ticks + stepCost s } := by
  rw [advance_fetch, stepCost_running s hrun, fetchCost_eq, execCost_of_no_drumOperand _ _ hi, Nat.add_zero]

/-- The fetch and then the operand access, charged: the head at the operand's sector, the whole cost in `ticks`. -/
theorem advance_fetch_operand (s : State) (operand : Addr) (hrun : s.halted = false)
    (hi : (nextInstr s).drumOperand = some operand) :
    advance (latencyFrom (advance (latencyFrom s.head (sectorOf s.ic) + 1) s).head (sectorOf operand))
        (advance (latencyFrom s.head (sectorOf s.ic) + 1) s) =
      { s with head := sectorOf operand, ticks := s.ticks + stepCost s } := by
  rw [advance_latency, advance_fetch, stepCost_running s hrun, fetchCost_eq, execCost_of_drumOperand _ _ operand hi,
    latencyFrom_eq_sub (sectorOf s.ic + 1), Nat.add_assoc]

/-! ## The step of each kind of instruction (R90) -/

theorem step_bring (s : State) (operand : Addr) (hrun : s.halted = false) (hi : nextInstr s = .b operand) :
    step s = .next
      { s with
        acc := wordAt s operand, head := sectorOf operand, ticks := s.ticks + stepCost s, ic := s.ic + 1 } := by
  rw [step_running s hrun, hi, exec_bring, advance_fetch_operand s operand hrun (by rw [hi]; rfl)]
  rfl

theorem step_hold (s : State) (operand : Addr) (hrun : s.halted = false) (hi : nextInstr s = .h operand) :
    step s = .next
      { storeWord operand.toNat s.acc s with
        head := sectorOf operand, ticks := s.ticks + stepCost s, ic := s.ic + 1 } := by
  rw [step_running s hrun, hi, exec_hold, ← storeWord_advance, advance_fetch_operand s operand hrun (by rw [hi]; rfl)]
  rfl

theorem step_stop (s : State) (operand : Addr) (hrun : s.halted = false) (hi : nextInstr s = .z operand) :
    step s = .next
      { s with halted := true, head := sectorOf s.ic + 1, ticks := s.ticks + stepCost s, ic := s.ic + 1 } := by
  rw [step_running s hrun, advance_fetch_only s hrun (by rw [hi]; rfl), hi]
  rfl

theorem step_reserved (s : State) (hrun : s.halted = false) (hi : (nextInstr s).reserved = true) :
    step s = .next
      { s with
        events := s.events ++ [⟨(nextInstr s).opcode, s.ic⟩], head := sectorOf s.ic + 1,
        ticks := s.ticks + stepCost s, ic := s.ic + 1 } := by
  rw [step_running s hrun, advance_fetch_only s hrun (drumOperand_of_reserved _ hi), exec_reserved _ _ hi]
  rfl

/-! ## Everything a step can do (R90, R98) -/

/-- The state a step leads to: the same one when halted, and otherwise one per kind of instruction. -/
inductive StepsTo (s : State) : State → Prop
  | halted (hhalt : s.halted = true) : StepsTo s s
  | bring (hrun : s.halted = false) (operand : Addr) (hi : nextInstr s = .b operand) :
      StepsTo s
        { s with acc := wordAt s operand, head := sectorOf operand, ticks := s.ticks + stepCost s, ic := s.ic + 1 }
  | hold (hrun : s.halted = false) (operand : Addr) (hi : nextInstr s = .h operand) :
      StepsTo s
        { storeWord operand.toNat s.acc s with
          head := sectorOf operand, ticks := s.ticks + stepCost s, ic := s.ic + 1 }
  | stop (hrun : s.halted = false) (operand : Addr) (hi : nextInstr s = .z operand) :
      StepsTo s
        { s with halted := true, head := sectorOf s.ic + 1, ticks := s.ticks + stepCost s, ic := s.ic + 1 }
  | reserved (hrun : s.halted = false) (hi : (nextInstr s).reserved = true) :
      StepsTo s
        { s with
          events := s.events ++ [⟨(nextInstr s).opcode, s.ic⟩], head := sectorOf s.ic + 1,
          ticks := s.ticks + stepCost s, ic := s.ic + 1 }

theorem step_of_stepsTo (s t : State) (h : StepsTo s t) : step s = .next t := by
  cases h with
  | halted hhalt => exact stepWith_halted _ s hhalt
  | bring hrun operand hi => exact step_bring s operand hrun hi
  | hold hrun operand hi => exact step_hold s operand hrun hi
  | stop hrun operand hi => exact step_stop s operand hrun hi
  | reserved hrun hi => exact step_reserved s hrun hi

theorem exists_stepsTo (s : State) : ∃ t, StepsTo s t := by
  cases hs : s.halted with
  | true => exact ⟨_, .halted hs⟩
  | false =>
    obtain ⟨operand, hi⟩ | ⟨operand, hi⟩ | ⟨operand, hi⟩ | hi := instr_kind_cases (nextInstr s)
    · exact ⟨_, .bring hs operand hi⟩
    · exact ⟨_, .hold hs operand hi⟩
    · exact ⟨_, .stop hs operand hi⟩
    · exact ⟨_, .reserved hs hi⟩

/-- `StepsTo` is the step. -/
theorem step_iff_stepsTo (s t : State) : step s = .next t ↔ StepsTo s t := by
  refine ⟨fun hstep => ?_, step_of_stepsTo s t⟩
  obtain ⟨u, hu⟩ := exists_stepsTo s
  cases (step_of_stepsTo s u hu).symm.trans hstep
  exact hu

/-! ## The decoded instruction runs (R90) -/

/-- Settles O25: a running step is the decoded instruction between the charged fetch and the counter advance. -/
theorem stepRunsDecodedInstruction : Obligations.StepRunsDecodedInstruction := by
  intro s i hrun hdecode
  rw [step_running s hrun, show nextInstr s = i from hdecode]
  cases hexec : exec i (advance (latencyFrom s.head (sectorOf s.ic) + 1) s) with
  | next t => rfl
  | fault f => rfl
  | refused r => rfl

/-! ## A whole step from the word's bits (R110, R111, R120, R125) -/

/-- The cost of a step with an operand access, in the sectors of the two addresses. -/
theorem stepCost_of_drumOperand (s : State) (operand : Addr) (hrun : s.halted = false)
    (hi : (nextInstr s).drumOperand = some operand) :
    stepCost s = ((sectorOf s.ic - s.head).toNat + 1) + (sectorOf operand - (sectorOf s.ic + 1)).toNat := by
  rw [stepCost_running s hrun, execCost_of_drumOperand _ _ operand hi, fetchCost]

/-- The cost of a step without one. -/
theorem stepCost_of_no_drumOperand (s : State) (hrun : s.halted = false) (hi : (nextInstr s).drumOperand = none) :
    stepCost s = (sectorOf s.ic - s.head).toNat + 1 := by
  rw [stepCost_running s hrun, execCost_of_no_drumOperand _ _ hi, fetchCost]

/-- The instruction the fetched word's bits 19:16 select, with the operand of its bits 13:2. -/
theorem nextInstr_of_bitField (s : State) (c : Opcode) (h : bitField (wordAt s s.ic) 19 16 = c.toNat) :
    nextInstr s = instrOfFields c (operandField (wordAt s s.ic)) := decode_of_bitField _ c h

/-- Settles O26: the word's bits select Bring, and its step is `step_bring`. -/
theorem bringStep : Obligations.BringStep := by
  intro s operand hrun hopcode hoperand
  have hi : nextInstr s = .b operand := hoperand ▸ nextInstr_of_bitField s 0x1 hopcode
  rw [step_bring s operand hrun hi, stepCost_of_drumOperand s operand hrun (by rw [hi]; rfl)]

/-- Settles O27: the word's bits select Hold, and its step is `step_hold`. -/
theorem holdStep : Obligations.HoldStep := by
  intro s operand hrun hopcode hoperand
  have hi : nextInstr s = .h operand := hoperand ▸ nextInstr_of_bitField s 0xE hopcode
  refine ⟨_, step_hold s operand hrun hi, ?_, fun a => read_storeWord operand.toNat a s.acc s⟩
  rw [stepCost_of_drumOperand s operand hrun (by rw [hi]; rfl)]
  rfl

/-- Settles O28: the word's bits select Stop, and its step is `step_stop`. -/
theorem stopStep : Obligations.StopStep := by
  intro s hrun hopcode
  have hi := nextInstr_of_bitField s 0xF hopcode
  rw [step_stop s _ hrun hi, stepCost_of_no_drumOperand s hrun (by rw [hi]; rfl)]

/-- Settles O29: an opcode of no Bring, Hold or Stop selects a reserved row, whose step is `step_reserved`. -/
theorem reservedStep : Obligations.ReservedStep := by
  intro s c hrun hopcode hbring hhold hstop
  have hc : (nextInstr s).opcode = c := by rw [nextInstr_of_bitField s c hopcode, opcode_instrOfFields]
  have hi : (nextInstr s).reserved = true := (reserved_iff_opcode _).mpr (hc ▸ ⟨hbring, hhold, hstop⟩)
  rw [step_reserved s hrun hi, hc, stepCost_of_no_drumOperand s hrun (drumOperand_of_reserved _ hi)]

/-! ## What a step may change (R98) -/

/-- Settles O30, case by case of `StepsTo`. -/
theorem stepFrame : Obligations.StepFrame := by
  intro s t hstep
  cases (step_iff_stepsTo s t).mp hstep with
  | halted hhalt => simp [hhalt]
  | bring hrun operand hi =>
    have hopcode := bitField_of_nextInstr s _ hi
    have hoperand := operandField_of_nextInstr s _ hi
    simp [hrun, hopcode, hoperand, Instr.opcode, Instr.operand]
  | hold hrun operand hi =>
    have hopcode := bitField_of_nextInstr s _ hi
    have hoperand := operandField_of_nextInstr s _ hi
    simp [hrun, hopcode, hoperand, Instr.opcode, Instr.operand, Memory.read_write, eq_comm (a := operand.toNat)]
  | stop hrun operand hi =>
    have hopcode := bitField_of_nextInstr s _ hi
    simp [hrun, hopcode, Instr.opcode]
  | reserved hrun hi =>
    simp [hrun, (reserved_nextInstr_iff s).mp hi]

/-- Settles O34: the head of each case of `StepsTo`. -/
theorem headAfterStep : Obligations.HeadAfterStep := by
  intro s t hstep
  cases (step_iff_stepsTo s t).mp hstep with
  | halted hhalt => rw [if_pos hhalt]
  | bring hrun operand hi => rw [hrun, hi]; rfl
  | hold hrun operand hi => rw [hrun, hi]; rfl
  | stop hrun operand hi => rw [hrun, hi]; rfl
  | reserved hrun hi =>
    rw [hrun]
    cases hkind : nextInstr s with
    | b | h | z => rw [hkind] at hi; cases hi
    | _ => rfl

/-- The cost of a step from another head position: only the fetch sees it. -/
theorem stepCost_with_head (s : State) (h : Sector) (hrun : s.halted = false) :
    stepCost { s with head := h } = ((sectorOf s.ic - h).toNat + 1) + execCost (nextInstr s) s.ic :=
  stepCost_running { s with head := h } hrun

/-- Settles O35: of the state a running step leads to, `ticks` alone names the head before it. -/
theorem headInfluencesOneStepOnly : Obligations.HeadInfluencesOneStepOnly := by
  intro s t h hrun hstep
  rw [Nat.add_assoc, ← stepCost_with_head s h hrun]
  cases (step_iff_stepsTo s t).mp hstep with
  | halted hhalt => rw [hhalt] at hrun; cases hrun
  | bring _ operand hi => exact step_bring { s with head := h } operand hrun hi
  | hold _ operand hi => exact step_hold { s with head := h } operand hrun hi
  | stop _ operand hi => exact step_stop { s with head := h } operand hrun hi
  | reserved _ hi => exact step_reserved { s with head := h } hrun hi

/-- A step that halts a running machine is a Stop's: of what it leaves, the drum and the place of the counter. -/
theorem step_halts_cases (s t : State) (hrun : s.halted = false) (hstep : step s = .next t) (hend : Ended t) :
    t.mem = s.mem ∧ t.ic = s.ic + 1 ∧ ∃ operand, nextInstr s = .z operand := by
  cases (step_iff_stepsTo s t).mp hstep with
  | halted => rw [hend] at hrun; cases hrun
  | bring | hold | reserved => exact absurd (hrun.symm.trans hend) Bool.false_ne_true
  | stop _ operand hi => exact ⟨rfl, rfl, operand, hi⟩

/-- Settles O37: the Stop leaves its own word, one before the counter. -/
theorem endedRunStandsPastItsStop : Obligations.EndedRunStandsPastItsStop := by
  intro s t hrun hstep hend
  obtain ⟨hmem, hic, operand, hi⟩ := step_halts_cases s t hrun hstep hend
  have hback : t.ic - 1 = s.ic := by rw [hic, BitVec.add_sub_cancel]
  refine ⟨hback, ?_⟩
  rw [hback, wordAt_of_mem_eq t s s.ic hmem]
  exact bitField_of_nextInstr s _ hi

/-- Settles O38, case by case of `StepsTo`. -/
theorem eventsRecordReservedOpcodes : Obligations.EventsRecordReservedOpcodes := by
  refine ⟨fun s t hstep => ?_, fun cfg s => ⟨rfl, rfl⟩⟩
  simp only [← reserved_nextInstr_iff, ofNat_bitField_command]
  cases (step_iff_stepsTo s t).mp hstep with
  | halted hhalt => simp [hhalt]
  | bring hrun operand hi => simp [hi, Instr.reserved]
  | hold hrun operand hi => simp [hi, Instr.reserved]
  | stop hrun operand hi => simp [hi, Instr.reserved]
  | reserved hrun hi => simp [hrun, hi]

/-! ## One step and the next (R62, R178) -/

/-- A direct word write at a flat address. -/
theorem act_write_of_addr (cfg : Config) (a : Addr) (v : Word) (s : State) :
    act cfg (.write (trackOf a).toNat (sectorOf a).toNat v.toNat) s = .next (storeWord a.toNat v s) := by
  rw [act, hostWrite, coordInRange_sector, coordInRange_sector, linearAddress_of_addr, BitVec.ofInt_natCast,
    BitVec.ofNat_toNat, BitVec.setWidth_eq]
  rfl

/-- A word stored where the counter stands is the next instruction. -/
theorem nextInstr_of_stored (s t : State) (v : Word) (hmem : t.mem = s.mem.write t.ic.toNat v) :
    nextInstr t = decode v := by
  rw [nextInstr, wordAt, hmem, Memory.read_write, if_pos rfl]

/-- Settles O43: both the Hold and the host store the word where the counter then stands. -/
theorem storedWordIsFetchedNext : Obligations.StoredWordIsFetchedNext := by
  refine ⟨fun s t hrun hi hstep => ?hold, fun cfg s t v hact => ?host⟩
  case hold =>
    cases (step_hold s _ hrun hi).symm.trans hstep
    exact ⟨hrun, nextInstr_of_stored s _ s.acc rfl⟩
  case host =>
    cases (act_write_of_addr cfg s.ic v s).symm.trans hact
    exact nextInstr_of_stored s _ v rfl

/-- Settles O44: the second step reads what the first one wrote, `acc` or the word. -/
theorem noLoadUseHazard : Obligations.NoLoadUseHazard := by
  intro s t u a b hrun hfirst hsecond
  refine ⟨fun hbring hhold => ?through, fun hhold hbring => ?back⟩
  case through =>
    cases (step_bring s a hrun hbring).symm.trans hfirst
    cases (step_hold _ b (by exact hrun) hhold).symm.trans hsecond
    exact ⟨read_storeWord_same b.toNat _ _, rfl⟩
  case back =>
    cases (step_hold s a hrun hhold).symm.trans hfirst
    cases (step_bring _ a (by exact hrun) hbring).symm.trans hsecond
    exact read_storeWord_same a.toNat s.acc s

/-! ## No step faults (R65, R104) -/

/-- Every state has a next one. -/
theorem exists_step (s : State) : ∃ t, step s = .next t :=
  (exists_stepsTo s).imp fun t => step_of_stepsTo s t

theorem safe_stepsWith (cfg : Config) (hstrict : cfg.operandStrict = false) (n : Nat) (s : State) :
    Safe (stepsWith cfg n s) := by
  induction n generalizing s with
  | zero => rfl
  | succ n ih =>
    obtain ⟨t, ht⟩ := exists_step s
    rw [stepsWith_succ_of_next cfg n s t ((stepWith_of_not_strict cfg s hstrict).trans ht)]
    exact ih t

/-- Settles O31: every case of the step answers a state, and so by induction does every run of steps. -/
theorem stepNeverFaults : Obligations.StepNeverFaults := by
  refine fun cfg s hstrict => ⟨?_, fun n => safe_stepsWith cfg hstrict n s⟩
  obtain ⟨t, ht⟩ := exists_step s
  rw [ht]
  rfl

end Sys2Proof.Machine
end

section
/-! PROOFS. Time (spec/40_step_cycle.md R99 to R103, 43_reserved_opcodes.md R126, 70_reset_and_hazards.md R181 to R183): what one
step costs, what placement makes of it, and the sums over a run. -/

namespace Sys2Proof.Machine

/-! ## The cost of one step (R99, R181, R183) -/

/-- Bring and Hold are the instructions with an operand access. -/
theorem drumOperand_eq_some_iff (i : Instr) (operand : Addr) :
    i.drumOperand = some operand ↔ i = .b operand ∨ i = .h operand := by
  cases i <;> simp [Instr.drumOperand]

theorem fetchCost_next (s : State) : fetchCost s.head s.ic = fetchWait s + 1 := fetchCost_eq s.head s.ic

theorem fetchWait_le (s : State) : fetchWait s ≤ 63 := latencyFrom_le _ _

theorem execCost_le (i : Instr) (a : Addr) : execCost i a ≤ 63 := by
  cases hi : i.drumOperand with
  | none => rw [execCost_of_no_drumOperand i a hi]; omega
  | some operand =>
    rw [execCost_of_drumOperand i a operand hi, ← latencyFrom_eq_sub]
    exact latencyFrom_le _ _

/-- The dearest operand is the one the head has just passed, in the instruction's own sector. -/
theorem execCost_eq_max_iff (i : Instr) (a : Addr) :
    execCost i a = 63 ↔ ∃ operand, i.drumOperand = some operand ∧ sectorOf operand = sectorOf a := by
  cases hi : i.drumOperand with
  | none => simp [execCost_of_no_drumOperand i a hi]
  | some operand =>
    have hmax : (sectorOf operand - (sectorOf a + 1)).toNat = 63 ↔ sectorOf operand = sectorOf a := by bv_omega
    rw [execCost_of_drumOperand i a operand hi, hmax]
    simp

/-- Every step charges `stepCost`. -/
theorem step_ticks (s t : State) (hstep : step s = .next t) : t.ticks = s.ticks + stepCost s := by
  cases (step_iff_stepsTo s t).mp hstep with
  | halted hhalt => rw [stepCost_halted s hhalt, Nat.add_zero]
  | bring | hold | stop | reserved => rfl

/-- Settles O32: a running step costs its fetch, 1 to 64, and its operand access, at most 63. -/
theorem stepCostIsTable : Obligations.StepCostIsTable := by
  intro s t hstep
  have hwait := fetchWait_le s
  have hexec := execCost_le (nextInstr s) s.ic
  refine ⟨step_ticks s t hstep, stepCost_halted s, fun hrun => ?bounds, fun hrun hi => ?noOperand⟩
  case bounds =>
    rw [stepCost_running s hrun, fetchCost_next]
    omega
  case noOperand =>
    rw [stepCost_running s hrun, fetchCost_next, execCost_of_no_drumOperand _ _ hi]
    omega

/-- Settles O33: 127 is reached only when both parts of the cost are at their greatest. -/
theorem dearestStep : Obligations.DearestStep := by
  intro s t hrun hstep
  have hwait := fetchWait_le s
  have hexec := execCost_le (nextInstr s) s.ic
  simp only [← drumOperand_eq_some_iff, ← execCost_eq_max_iff]
  rw [step_ticks s t hstep, stepCost_running s hrun, fetchCost_next]
  omega

/-! ## The wait of the next fetch (R100, R103) -/

theorem step_head_of_drumOperand (s t : State) (operand : Addr) (hrun : s.halted = false) (hstep : step s = .next t)
    (hi : (nextInstr s).drumOperand = some operand) : t.head = sectorOf operand := by
  obtain hi | hi := (drumOperand_eq_some_iff _ _).mp hi
  · cases (step_bring s operand hrun hi).symm.trans hstep; rfl
  · cases (step_hold s operand hrun hi).symm.trans hstep; rfl

theorem step_head_of_no_drumOperand (s t : State) (hrun : s.halted = false) (hstep : step s = .next t)
    (hnone : (nextInstr s).drumOperand = none) : t.head = sectorOf s.ic + 1 := by
  cases (step_iff_stepsTo s t).mp hstep with
  | halted hhalt => rw [hhalt] at hrun; cases hrun
  | bring _ operand hi | hold _ operand hi => rw [hi] at hnone; cases hnone
  | stop | reserved => rfl

/-- The fetch after an executed step is from the next sector. -/
theorem fetchWait_after_step (s t : State) (hrun : s.halted = false) (hstep : step s = .next t) :
    fetchWait t = latencyFrom t.head (sectorOf s.ic + 1) := by
  rw [fetchWait, step_running_ic s t hrun hstep]
  exact congrArg _ (sectorOf_succ s.ic)

theorem fetchWait_after_no_drumOperand (s t : State) (hrun : s.halted = false) (hstep : step s = .next t)
    (hi : (nextInstr s).drumOperand = none) : fetchWait t = 0 := by
  rw [fetchWait_after_step s t hrun hstep, step_head_of_no_drumOperand s t hrun hstep hi, latencyFrom_eq_zero_iff]

/-- From the sector after the instruction's own to the operand's and back is no time or a whole revolution. -/
theorem execCost_add_fetchWait_of_drumOperand (s t : State) (operand : Addr) (hrun : s.halted = false)
    (hstep : step s = .next t) (hi : (nextInstr s).drumOperand = some operand) :
    execCost (nextInstr s) s.ic + fetchWait t = if sectorOf operand = sectorOf s.ic + 1 then 0 else 64 := by
  rw [execCost_of_drumOperand _ _ operand hi, fetchWait_after_step s t hrun hstep,
    step_head_of_drumOperand s t operand hrun hstep hi, ← latencyFrom_eq_sub, latencyFrom_add_latencyFrom]
  simp only [eq_comm]

/-- Settles O41: the head stands at the next sector, or at the operand's, from where the way back closes the circle. -/
theorem straightLineCosts : Obligations.StraightLineCosts := by
  intro s t hrun hstep
  refine ⟨fun hi => ?_, fun operand hi => ?_⟩
  · rw [fetchCost_next, fetchWait_after_no_drumOperand s t hrun hstep hi]
  · exact execCost_add_fetchWait_of_drumOperand s t operand hrun hstep ((drumOperand_eq_some_iff _ _).mpr hi)

/-! ## Sums over a run (R102, R182) -/

/-- Settles O40, by induction on the number of steps. -/
theorem elapsedTimeIdentity : Obligations.ElapsedTimeIdentity := by
  intro n
  induction n with
  | zero =>
    intro s t hsteps
    cases hsteps
    rfl
  | succ n ih =>
    intro s t hsteps
    obtain ⟨u, hstep, hrest⟩ := stepsWith_succ_next _ n s t hsteps
    rw [stepTrace_succ_of_next _ n s u hstep, List.map_cons, List.sum_cons, ih u t hrest, step_ticks s u hstep,
      Nat.add_assoc]

/-- What the execute phase and the next fetch wait come to: a revolution for a badly placed operand and nothing otherwise. -/
theorem execCost_add_fetchWait (s t : State) (hrun : s.halted = false) (hstep : step s = .next t) :
    execCost (nextInstr s) s.ic + fetchWait t = if badlyPlaced s then 64 else 0 := by
  cases hi : (nextInstr s).drumOperand with
  | none =>
    rw [execCost_of_no_drumOperand _ _ hi, fetchWait_after_no_drumOperand s t hrun hstep hi, badlyPlaced, hi]
    rfl
  | some operand =>
    rw [execCost_add_fetchWait_of_drumOperand s t operand hrun hstep hi, badlyPlaced, hi]
    simp

/-- One step of R182: the conserved quantity is the elapsed time with the wait still to be paid. -/
theorem step_ticks_add_fetchWait (s t : State) (hrun : s.halted = false) (hstep : step s = .next t) :
    t.ticks + fetchWait t = s.ticks + fetchWait s + 1 + if badlyPlaced s then 64 else 0 := by
  rw [← execCost_add_fetchWait s t hrun hstep, step_ticks s t hstep, stepCost_running s hrun, fetchCost_next]
  omega

theorem stepsWith_ticks_add_fetchWait (n : Nat) (s t : State) (hsteps : stepsWith Config.default n s = .next t)
    (hrunning : ∀ u ∈ stepTrace Config.default n s, u.halted = false) :
    t.ticks + fetchWait t =
      s.ticks + fetchWait s + n + 64 * (stepTrace Config.default n s).countP badlyPlaced := by
  induction n generalizing s with
  | zero =>
    cases hsteps
    rfl
  | succ n ih =>
    obtain ⟨u, hstep, hrest⟩ := stepsWith_succ_next _ n s t hsteps
    rw [stepTrace_succ_of_next _ n s u hstep] at hrunning ⊢
    obtain ⟨hs, hlater⟩ := List.forall_mem_cons.mp hrunning
    rw [ih u hrest hlater, step_ticks_add_fetchWait s u hs hstep, List.countP_cons]
    split <;> omega

/-- Settles O42: the sum over a run, and the wait of the first fetch after a reset. -/
theorem placementAndTime : Obligations.PlacementAndTime :=
  ⟨stepsWith_ticks_add_fetchWait, fun cfg => latencyFrom_eq_emod cfg.headReset (sectorOf 0)⟩

/-! ## Through an untouched drum (R126) -/

theorem add_one_add_ofNat {w : Nat} (x : BitVec w) (k : Nat) :
    x + 1#w + BitVec.ofNat w k = x + BitVec.ofNat w (k + 1) := by
  rw [BitVec.add_assoc, Nat.add_comm, BitVec.ofNat_add]

/-- On an empty drum, with the head at the sector of `ic`, a step takes one word-time and reports the opcode 0x0. -/
theorem step_of_mem_nil_aligned (s : State) (hmem : s.mem = []) (hrun : s.halted = false)
    (hhead : s.head = sectorOf s.ic) :
    step s = .next
      { s with ic := s.ic + 1, head := s.head + 1, ticks := s.ticks + 1, events := s.events ++ [⟨0x0, s.ic⟩] } := by
  rw [step_of_mem_nil s hmem hrun, (latencyFrom_eq_zero_iff _ _).mpr hhead.symm]
  rfl

/-- The addresses run through in `n + 1` steps: the first, and those of `n` steps from the next. -/
theorem events_of_run_succ (a : Addr) (n : Nat) :
    ((List.range (n + 1)).map fun k => (⟨0x0, a + BitVec.ofNat 12 k⟩ : Event)) =
      ⟨0x0, a⟩ :: (List.range n).map fun k => ⟨0x0, a + 1 + BitVec.ofNat 12 k⟩ := by
  simp only [List.range_succ_eq_map, List.map_cons, List.map_map, BitVec.add_zero]
  congr 1
  exact List.map_congr_left fun k _ => congrArg _ (add_one_add_ofNat a k).symm

/-- Settles O45, by induction on the number of steps: the state after one step is again such a state. -/
theorem untouchedDrumRun : Obligations.UntouchedDrumRun := by
  intro n
  induction n with
  | zero => intro s _ _ _; simp [stepsWith]
  | succ n ih =>
    intro s hmem hrun hhead
    have hnext : s.head + 1 = sectorOf (s.ic + 1) := by rw [hhead]; exact (sectorOf_succ s.ic).symm
    rw [stepsWith_succ_of_next _ n s _ (step_of_mem_nil_aligned s hmem hrun hhead), ih, events_of_run_succ]
    · simp [add_one_add_ofNat, Nat.add_assoc, Nat.add_comm 1 n]
    · exact hmem
    · exact hrun
    · exact hnext

end Sys2Proof.Machine
end

section
/-! PROOFS. The invariants of spec/10_state.md R33 along a step and along a run of actions, and that timing does not feed back into
function (spec/40_step_cycle.md R101). -/

namespace Sys2Proof.Machine

/-! ## One step (R33) -/

/-- A step stores at most at a drum address. -/
theorem step_keeps_wf (s t : State) (hwf : s.mem.wf) (hstep : step s = .next t) : t.mem.wf := by
  cases (step_iff_stepsTo s t).mp hstep with
  | halted | bring | stop | reserved => exact hwf
  | hold _ operand => exact Memory.wf_write s.mem operand.toNat s.acc hwf operand.isLt

theorem step_appends_events (s t : State) (hstep : step s = .next t) : s.events <+: t.events := by
  rw [eventsRecordReservedOpcodes.1 s t hstep]
  exact List.prefix_append _ _

/-- The head turns by exactly the word-times the step charges. -/
theorem step_turns_head (s t : State) (hstep : step s = .next t) :
    t.head = s.head + BitVec.ofNat 6 (stepCost s) := by
  cases hs : s.halted with
  | true =>
    cases (stepWith_halted _ s hs).symm.trans hstep
    rw [stepCost_halted s hs, BitVec.add_zero]
  | false =>
    rw [stepCost_running s hs, fetchCost_eq, BitVec.ofNat_add, BitVec.ofNat_add, ← BitVec.add_assoc,
      ← BitVec.add_assoc, head_add_latency]
    cases hi : (nextInstr s).drumOperand with
    | none =>
      rw [execCost_of_no_drumOperand _ _ hi, BitVec.add_zero]
      exact step_head_of_no_drumOperand s t hs hstep hi
    | some operand =>
      rw [execCost_of_drumOperand _ _ operand hi, ← latencyFrom_eq_sub]
      exact (step_head_of_drumOperand s t operand hs hstep hi).trans (head_add_latency _ _).symm

/-- What time keeps from one state to a later one: the clock invariant from any start, the direction of `ticks`, the events. -/
def ContinuesTo (s t : State) : Prop :=
  (∀ h0, ClockInvariant h0 s → ClockInvariant h0 t) ∧ s.ticks ≤ t.ticks ∧ s.events <+: t.events

theorem continuesTo_refl (s : State) : ContinuesTo s s := ⟨fun _ h => h, Nat.le_refl _, List.prefix_rfl⟩

theorem continuesTo_trans (s t u : State) (hst : ContinuesTo s t) (htu : ContinuesTo t u) : ContinuesTo s u := by
  obtain ⟨hclock, hticks, hevents⟩ := hst
  obtain ⟨hclock', hticks', hevents'⟩ := htu
  exact ⟨fun h0 h => hclock' h0 (hclock h0 h), hticks.trans hticks', hevents.trans hevents'⟩

theorem step_continuesTo (s t : State) (hstep : step s = .next t) : ContinuesTo s t := by
  refine ⟨fun h0 hclock => ?clock, ?ticks, step_appends_events s t hstep⟩
  case clock =>
    rw [ClockInvariant, step_turns_head s t hstep, step_ticks s t hstep, BitVec.ofNat_add, ← BitVec.add_assoc, ← hclock]
  case ticks =>
    rw [step_ticks s t hstep]
    exact Nat.le_add_right _ _

/-- Settles O46: the canonical form from the store's address, the rest from the cost the step charges. -/
theorem stepKeepsInvariants : Obligations.StepKeepsInvariants := by
  intro h0 s t hwf hclock hstep
  obtain ⟨hkeeps, hticks, hevents⟩ := step_continuesTo s t hstep
  exact ⟨step_keeps_wf s t hwf hstep, hkeeps h0 hclock, hticks, hevents⟩

/-! ## One action -/

/-- Under any parameters a step is the default one or a refusal. -/
theorem stepWith_eq_step_or_refused (cfg : Config) (s : State) :
    stepWith cfg s = step s ∨ ∃ r, stepWith cfg s = .refused r := by
  cases hs : s.halted with
  | true => exact .inl ((stepWith_halted cfg s hs).trans (stepWith_halted _ s hs).symm)
  | false =>
    obtain ⟨hrefused, hclear, hdefault⟩ := strictRefusesBits15And14 cfg s hs
    cases hstrict : cfg.operandStrict with
    | false => exact .inl (hdefault hstrict)
    | true =>
      by_cases hbits : bitField (wordAt s s.ic) 15 14 = 0
      · exact .inl (hclear hstrict hbits)
      · exact .inr ⟨_, hrefused hstrict hbits⟩

theorem step_of_stepWith (cfg : Config) (s t : State) (h : stepWith cfg s = .next t) : step s = .next t := by
  obtain hstep | ⟨r, hrefused⟩ := stepWith_eq_step_or_refused cfg s
  · exact hstep.symm.trans h
  · cases hrefused.symm.trans h

theorem act_write_ok (cfg : Config) (track sector value : Int) (s : State)
    (h : coordInRange track = true ∧ coordInRange sector = true) :
    act cfg (.write track sector value) s =
      .next (storeWord (linearAddress track sector) (BitVec.ofInt 32 value) s) := by
  rw [act, hostWrite, h.1, h.2]
  rfl

theorem act_write_fault (cfg : Config) (track sector value : Int) (s : State)
    (h : ¬ (coordInRange track = true ∧ coordInRange sector = true)) :
    act cfg (.write track sector value) s = .fault (.drumRangeError (some track) sector) := by
  rw [act, hostWrite, if_neg fun hb => h ((Bool.and_eq_true _ _).mp hb)]
  rfl

theorem act_read_ok (cfg : Config) (track sector : Int) (s : State)
    (h : coordInRange track = true ∧ coordInRange sector = true) : act cfg (.read track sector) s = .next s := by
  rw [act, hostRead, h.1, h.2]
  rfl

theorem act_read_fault (cfg : Config) (track sector : Int) (s : State)
    (h : ¬ (coordInRange track = true ∧ coordInRange sector = true)) :
    act cfg (.read track sector) s = .fault (.drumRangeError (some track) sector) := by
  rw [act, hostRead, if_neg fun hb => h ((Bool.and_eq_true _ _).mp hb)]
  rfl

/-- Every action keeps the drum canonical. -/
theorem act_keeps_wf (cfg : Config) (x : Action) (s t : State) (hwf : s.mem.wf) (hact : act cfg x s = .next t) :
    t.mem.wf := by
  cases x with
  | step => exact step_keeps_wf s t hwf (step_of_stepWith cfg s t hact)
  | write track sector value =>
    by_cases hrange : coordInRange track = true ∧ coordInRange sector = true
    · cases (act_write_ok cfg track sector value s hrange).symm.trans hact
      exact Memory.wf_write s.mem _ _ hwf (linearAddress_lt track sector hrange.1 hrange.2)
    · cases (act_write_fault cfg track sector value s hrange).symm.trans hact
  | read track sector => cases act_read_next cfg track sector s t hact; exact hwf
  | inspect | readEvents | unitReset => cases hact; exact hwf
  | machineReset => cases hact; exact Memory.wf_ofImage cfg.drumImage

/-- A state that differs in its memory alone has lost nothing that time keeps. -/
theorem continuesTo_of_mem_frame (s t : State) (h : t = { s with mem := t.mem }) : ContinuesTo s t := by
  rw [h]
  exact continuesTo_refl s

theorem act_continuesTo (cfg : Config) (x : Action) (s t : State) (hmachine : x ≠ .machineReset)
    (hunit : x ≠ .unitReset) (hact : act cfg x s = .next t) : ContinuesTo s t := by
  by_cases hx : x = .step
  · subst hx
    exact step_continuesTo s t (step_of_stepWith cfg s t hact)
  · exact continuesTo_of_mem_frame s t (act_frame_of_host cfg x s t hx hmachine hunit hact)

/-! ## Runs of actions -/

/-- A run that gives a next state is an action that gives one and the rest of the run from there. -/
theorem runActions_cons_next (cfg : Config) (x : Action) (xs : List Action) (s t : State)
    (h : runActions cfg (x :: xs) s = .next t) : ∃ u, act cfg x s = .next u ∧ runActions cfg xs u = .next t := by
  rw [runActions] at h
  split at h
  · next u hu => exact ⟨u, hu, h⟩
  · cases h
  · cases h

/-- The induction over a run of actions: what holds at its start and is kept by each of its actions holds at its end. -/
theorem runActions_invariant (cfg : Config) (P : State → Prop) (xs : List Action) (s t : State) (hs : P s)
    (hkeep : ∀ x ∈ xs, ∀ u v, P u → act cfg x u = .next v → P v) (hrun : runActions cfg xs s = .next t) : P t := by
  induction xs generalizing s with
  | nil => cases hrun; exact hs
  | cons x xs ih =>
    obtain ⟨u, hact, hrest⟩ := runActions_cons_next cfg x xs s t hrun
    obtain ⟨hfirst, hlater⟩ := List.forall_mem_cons.mp hkeep
    exact ih u (hfirst s u hs hact) hlater hrest

/-- Settles O48: both parts by the induction over a run. -/
theorem runsKeepInvariants : Obligations.RunsKeepInvariants := by
  intro cfg xs s t hwf hrun
  refine ⟨?canonical, fun hmachine hunit => ?time⟩
  case canonical =>
    exact runActions_invariant cfg (fun u => u.mem.wf) xs s t hwf (fun x _ u v => act_keeps_wf cfg x u v) hrun
  case time =>
    refine runActions_invariant cfg (ContinuesTo s) xs s t (continuesTo_refl s) (fun x hx u v hu hact => ?_) hrun
    exact continuesTo_trans s u v hu
      (act_continuesTo cfg x u v (ne_of_mem_of_not_mem hx hmachine) (ne_of_mem_of_not_mem hx hunit) hact)

/-! ## HALTED through a run (R33, R97) -/

/-- In `HALTED` an action short of a reset changes at most the drum. -/
theorem act_halted_mem_frame (cfg : Config) (x : Action) (s t : State) (hs : s.halted = true)
    (hmachine : x ≠ .machineReset) (hunit : x ≠ .unitReset) (hact : act cfg x s = .next t) :
    t = { s with mem := t.mem } := by
  by_cases hx : x = .step
  · subst hx
    cases (stepWith_halted cfg s hs).symm.trans hact
    rfl
  · exact act_frame_of_host cfg x s t hx hmachine hunit hact

/-- In `HALTED` an action short of a reset and of a direct write changes nothing. -/
theorem act_halted_eq (cfg : Config) (x : Action) (s t : State) (hs : s.halted = true)
    (hmachine : x ≠ .machineReset) (hunit : x ≠ .unitReset) (hwrite : ∀ track sector value, x ≠ .write track sector value)
    (hact : act cfg x s = .next t) : t = s := by
  cases x with
  | step => cases (stepWith_halted cfg s hs).symm.trans hact; rfl
  | write track sector value => exact absurd rfl (hwrite track sector value)
  | read track sector => exact act_read_next cfg track sector s t hact
  | inspect | readEvents => cases hact; rfl
  | machineReset => exact absurd rfl hmachine
  | unitReset => exact absurd rfl hunit

theorem mem_frame_trans (s u v : State) (hu : u = { s with mem := u.mem }) (hv : v = { u with mem := v.mem }) :
    v = { s with mem := v.mem } := by
  rw [hv, hu]

/-- Settles O49: both frames by the induction over a run. -/
theorem haltedIsTerminal : Obligations.HaltedIsTerminal := by
  intro cfg xs s t hs hmachine hunit hrun
  refine ⟨?frame, fun hwrite => ?same⟩
  case frame =>
    refine runActions_invariant cfg (fun u => u = { s with mem := u.mem }) xs s t rfl (fun x hx u v hu hact => ?_) hrun
    have hhalted : u.halted = true := by rw [hu]; exact hs
    exact mem_frame_trans s u v hu (act_halted_mem_frame cfg x u v hhalted (ne_of_mem_of_not_mem hx hmachine)
      (ne_of_mem_of_not_mem hx hunit) hact)
  case same =>
    refine runActions_invariant cfg (fun u => u = s) xs s t rfl (fun x hx u v hu hact => ?_) hrun
    subst hu
    exact act_halted_eq cfg x u v hs (ne_of_mem_of_not_mem hx hmachine) (ne_of_mem_of_not_mem hx hunit)
      (fun track sector value => ne_of_mem_of_not_mem hx (hwrite track sector value)) hact

/-! ## Timing does not feed back (R101) -/

/-- Two outcomes with one functional content are two next states with one functional state, or one stop. -/
theorem functionalOutcomeEq_cases (o p : Host.Outcome State Fault Refusal) (h : FunctionalOutcomeEq o p) :
    (∃ s t, o = .next s ∧ p = .next t ∧ FunctionalEq s t) ∨ (∃ f, o = .fault f ∧ p = .fault f) ∨
      ∃ r, o = .refused r ∧ p = .refused r := by
  cases o with
  | next s =>
    cases p with
    | next t => exact .inl ⟨s, t, rfl, rfl, h⟩
    | fault | refused => cases h
  | fault f =>
    cases p with
    | fault g => cases h; exact .inr (.inl ⟨f, rfl, rfl⟩)
    | next | refused => cases h
  | refused r =>
    cases p with
    | refused q => cases h; exact .inr (.inr ⟨r, rfl, rfl⟩)
    | next | fault => cases h

theorem finishStep_exec_functionalEq (a : Addr) (i : Instr) (s t : State) (h : FunctionalEq s t) :
    FunctionalOutcomeEq (finishStep a (exec i s)) (finishStep a (exec i t)) := by
  obtain ⟨hmem, hacc, hic, hhalted, hevents⟩ := h
  obtain ⟨operand, rfl⟩ | ⟨operand, rfl⟩ | ⟨operand, rfl⟩ | hi := instr_kind_cases i
  · rw [exec_bring, exec_bring]
    exact ⟨hmem, wordAt_of_mem_eq s t operand hmem, rfl, hhalted, hevents⟩
  · rw [exec_hold, exec_hold]
    exact ⟨by simp [hmem, hacc], hacc, rfl, hhalted, hevents⟩
  · rw [exec_stop, exec_stop]
    exact ⟨hmem, hacc, rfl, rfl, hevents⟩
  · rw [exec_reserved i s hi, exec_reserved i t hi]
    exact ⟨hmem, hacc, rfl, hhalted, by simp [hevents, hic]⟩

theorem runWord_functionalEq (cfg : Config) (h : Sector) (a : Addr) (w : Word) (s t : State) (hst : FunctionalEq s t) :
    FunctionalOutcomeEq (runWord cfg a w s) (runWord { cfg with headReset := h } a w t) := by
  rw [runWord, runWord]
  cases decodeWith cfg.operandStrict w with
  | ok i => exact finishStep_exec_functionalEq a i s t hst
  | error e => cases e; rfl

theorem stepWith_functionalEq (cfg : Config) (h : Sector) (s t : State) (hst : FunctionalEq s t) :
    FunctionalOutcomeEq (stepWith cfg s) (stepWith { cfg with headReset := h } t) := by
  obtain ⟨hmem, -, hic, hhalted, -⟩ := id hst
  cases hs : s.halted with
  | true =>
    rw [stepWith_halted _ s hs, stepWith_halted _ t (hhalted ▸ hs)]
    exact hst
  | false =>
    rw [stepWith_running _ s hs, stepWith_running _ t (hhalted ▸ hs), ← hic, ← wordAt_of_mem_eq s t s.ic hmem]
    exact runWord_functionalEq cfg h s.ic _ _ _ hst

theorem act_functionalEq (cfg : Config) (h : Sector) (x : Action) (s t : State) (hst : FunctionalEq s t) :
    FunctionalOutcomeEq (act cfg x s) (act { cfg with headReset := h } x t) := by
  obtain ⟨hmem, hacc, hic, hhalted, hevents⟩ := id hst
  cases x with
  | step => exact stepWith_functionalEq cfg h s t hst
  | write track sector value =>
    by_cases hrange : coordInRange track = true ∧ coordInRange sector = true
    · rw [act_write_ok _ _ _ _ s hrange, act_write_ok _ _ _ _ t hrange]
      exact ⟨by simp [hmem], hacc, hic, hhalted, hevents⟩
    · rw [act_write_fault _ _ _ _ s hrange, act_write_fault _ _ _ _ t hrange]
      rfl
  | read track sector =>
    by_cases hrange : coordInRange track = true ∧ coordInRange sector = true
    · rw [act_read_ok _ _ _ s hrange, act_read_ok _ _ _ t hrange]
      exact hst
    · rw [act_read_fault _ _ _ s hrange, act_read_fault _ _ _ t hrange]
      rfl
  | inspect | readEvents => exact hst
  | machineReset => exact ⟨rfl, rfl, rfl, rfl, rfl⟩
  | unitReset => exact ⟨hmem, rfl, rfl, rfl, rfl⟩

/-- Settles O50, by induction on the run: the two runs act alike, or stop alike, action by action. -/
theorem timingNeverFeedsBack : Obligations.TimingNeverFeedsBack := by
  intro cfg h xs
  induction xs with
  | nil => exact fun s t hst => hst
  | cons x xs ih =>
    intro s t hst
    rw [runActions, runActions]
    obtain ⟨u, v, hs, ht, huv⟩ | ⟨f, hs, ht⟩ | ⟨r, hs, ht⟩ :=
      functionalOutcomeEq_cases _ _ (act_functionalEq cfg h x s t hst)
    · rw [hs, ht]
      exact ih u v huv
    · rw [hs, ht]
      rfl
    · rw [hs, ht]
      rfl

end Sys2Proof.Machine
end

section
/-! PROOFS. Faults, direct word writes and resets (spec/50_interfaces.md, 60_exceptions.md, 70_reset_and_hazards.md). -/

namespace Sys2Proof.Machine

/-! ## The fault (R141, R151) -/

theorem stepWith_ne_fault (cfg : Config) (s : State) (f : Fault) : stepWith cfg s ≠ .fault f := by
  intro hfault
  obtain ⟨t, ht⟩ := exists_step s
  obtain hstep | ⟨r, hrefused⟩ := stepWith_eq_step_or_refused cfg s
  · cases (hstep.trans ht).symm.trans hfault
  · cases hrefused.symm.trans hfault

/-- An action that faults is a host access out of range, and the record names its coordinates. -/
theorem act_fault_cases (cfg : Config) (x : Action) (s : State) (f : Fault) (hact : act cfg x s = .fault f) :
    ∃ track sector : Int, f = .drumRangeError (some track) sector ∧
      ¬ (coordInRange track = true ∧ coordInRange sector = true) ∧
      (x = .read track sector ∨ ∃ value, x = .write track sector value) := by
  cases x with
  | step => exact absurd hact (stepWith_ne_fault cfg s f)
  | write track sector value =>
    by_cases hrange : coordInRange track = true ∧ coordInRange sector = true
    · cases (act_write_ok cfg track sector value s hrange).symm.trans hact
    · cases (act_write_fault cfg track sector value s hrange).symm.trans hact
      exact ⟨track, sector, rfl, hrange, .inr ⟨value, rfl⟩⟩
  | read track sector =>
    by_cases hrange : coordInRange track = true ∧ coordInRange sector = true
    · cases (act_read_ok cfg track sector s hrange).symm.trans hact
    · cases (act_read_fault cfg track sector s hrange).symm.trans hact
      exact ⟨track, sector, rfl, hrange, .inl rfl⟩
  | inspect | readEvents | machineReset | unitReset => cases hact

/-- A run that faults does so before anything appended to it. -/
theorem runActions_append_of_fault (cfg : Config) (xs ys : List Action) (s : State) (f : Fault)
    (hrun : runActions cfg xs s = .fault f) : runActions cfg (xs ++ ys) s = .fault f := by
  induction xs generalizing s with
  | nil => cases hrun
  | cons x xs ih =>
    rw [List.cons_append, runActions]
    rw [runActions] at hrun
    cases hact : act cfg x s with
    | next t => rw [hact] at hrun; exact ih t hrun
    | fault g => rw [hact] at hrun; exact hrun
    | refused r => rw [hact] at hrun; cases hrun

/-- Settles O51: the actions that fault, and by induction the runs that do. -/
theorem faultIsHostMisuseOnly : Obligations.FaultIsHostMisuseOnly := by
  refine ⟨fun cfg x s f hact => ?_, runActions_append_of_fault⟩
  simp only [← coordInRange_both_iff]
  exact act_fault_cases cfg x s f hact

/-! ## The direct word write (R136) -/

/-- The low 32 bits of a host value, as a residue (D2). -/
theorem ofInt_eq_ofNat_emod (value : Int) : BitVec.ofInt 32 value = BitVec.ofNat 32 (value % 2 ^ 32).toNat := by
  apply BitVec.eq_of_toNat_eq
  rw [BitVec.toNat_ofInt, BitVec.toNat_ofNat]
  omega

/-- Settles O52: the two branches of the range check. -/
theorem hostWriteContract : Obligations.HostWriteContract := by
  intro cfg s track sector value
  rw [← coordInRange_both_iff]
  refine ⟨fun hrange => ?_, act_write_fault cfg track sector value s⟩
  refine ⟨_, act_write_ok cfg track sector value s hrange, rfl, fun a => ?_⟩
  rw [read_storeWord, ofInt_eq_ofNat_emod, linearAddress]

/-! ## The resets (R170, R171) -/

/-- Settles O54: the image at every address, and the other fields as `resetWith` names them. -/
theorem machineResetValues : Obligations.MachineResetValues := fun cfg _ =>
  ⟨resetWith cfg, rfl, Memory.read_ofImage cfg.drumImage, rfl, rfl, rfl, rfl, rfl, rfl,
    congrArg Host.Outcome.next resetWith_default, fun _ => rfl, rfl⟩

/-- With no time elapsed the clock counts from where the head stands. -/
theorem clockInvariant_of_ticks_zero (s : State) (h : s.ticks = 0) : ClockInvariant s.head s := by
  rw [ClockInvariant, h, BitVec.add_zero]

/-- Settles O55: `unitReset` field by field. -/
theorem unitResetKeepsDrum : Obligations.UnitResetKeepsDrum := fun _ s =>
  ⟨unitReset s, rfl, rfl, rfl, rfl, rfl, rfl, rfl, rfl, clockInvariant_of_ticks_zero (unitReset s) rfl⟩

/-- Settles O47: an empty drum and an image's are canonical, and no time has passed. -/
theorem resetMeetsInvariants : Obligations.ResetMeetsInvariants :=
  ⟨Memory.wf_nil, clockInvariant_of_ticks_zero State.reset rfl, fun cfg =>
    ⟨Memory.wf_ofImage cfg.drumImage, clockInvariant_of_ticks_zero (resetWith cfg) rfl⟩⟩

/-! ## The launch state (R176) -/

/-- The words of a program written one after the other. -/
def Memory.writeAll (program : List (Addr × Word)) (m : Memory) : Memory :=
  match program with
  | [] => m
  | (a, v) :: rest => Memory.writeAll rest (m.write a.toNat v)

/-- One direct write per word of a program is `Memory.writeAll`, and nothing else changes. -/
theorem runActions_writes (cfg : Config) (program : List (Addr × Word)) (s : State) :
    runActions cfg (program.map fun p => .write (trackOf p.1).toNat (sectorOf p.1).toNat p.2.toNat) s =
      .next { s with mem := Memory.writeAll program s.mem } := by
  induction program generalizing s with
  | nil => rfl
  | cons p program ih =>
    rw [List.map_cons, runActions, act_write_of_addr]
    exact ih (storeWord p.1.toNat p.2 s)

theorem Memory.wf_writeAll (program : List (Addr × Word)) (m : Memory) (h : m.wf) :
    (Memory.writeAll program m).wf := by
  induction program generalizing m with
  | nil => exact h
  | cons p program ih => exact ih _ (Memory.wf_write m p.1.toNat p.2 h p.1.isLt)

/-- The last word a program gives an address is what it reads as, and the old word where it gives none. -/
theorem Memory.read_writeAll (program : List (Addr × Word)) (m : Memory) (a : Addr) :
    (Memory.writeAll program m).read a.toNat =
      ((program.reverse.find? fun p => p.1 == a).map Prod.snd).getD (m.read a.toNat) := by
  induction program generalizing m with
  | nil => rfl
  | cons p program ih =>
    rw [Memory.writeAll, ih, List.reverse_cons, List.find?_append]
    cases program.reverse.find? fun p => p.1 == a with
    | some q => rfl
    | none => by_cases ha : p.1 = a <;> simp [Memory.read_write, BitVec.toNat_inj, ha]

/-- Settles O56: both drums are canonical and read alike, so they are one list. -/
theorem launchByWritesIsLaunchByImage : Obligations.LaunchByWritesIsLaunchByImage := by
  intro program
  rw [runActions_writes]
  refine congrArg Host.Outcome.next (State.eq_of_fields _ _ ?drum rfl rfl rfl rfl rfl rfl)
  refine Memory.eq_of_read_eq _ _ (Memory.wf_writeAll program [] Memory.wf_nil) (Memory.wf_ofImage _) fun a ha => ?_
  have haddr : (BitVec.ofNat 12 a).toNat = a := Nat.mod_eq_of_lt ha
  rw [← haddr, reset_mem, Memory.read_writeAll, Memory.read_nil, resetWith_mem, Memory.read_ofImage]
  rfl

end Sys2Proof.Machine
end
